-- ==== Sys2Proof/Word.lean ====
section
/-! DEFINITION. The word types of the block: a command or argument word is 32 bits (spec R5, R60), a buffer byte 8 (R22),
the generator's register 24 (R5 `CRC_WIDTH`), the response data 64 (R5 `RDATA_WIDTH`). -/

namespace Sys2Proof

/-- A command word or an argument word (R60). -/
abbrev Word := BitVec 32

/-- One byte of the frame buffer or of the input stream (R22, R44). -/
abbrev Byte := BitVec 8

/-- A value of the CRC-24Q register (R130). -/
abbrev Crc := BitVec 24

/-- The response data word (R60, R67). -/
abbrev Data := BitVec 64

end Sys2Proof
end

