-- ==== Sys2Proof/Syntax.lean ====
section
/-! DEFINITION. The commands of the block: one constructor of `Instr` for each row of spec/opcode_table.json (R63).
An index, a position, a width and a count are numbers (R61 "Every field is an unsigned number"); a data byte and the
argument word are bits. `WellFormed.lean` says which operands fit their fields. -/

namespace Sys2Proof

/-- The fifteen legal opcodes of R63, in the order of their codes. -/
inductive Opcode where
  | nop | reset | push | status | bufRd | bufWr | crcInit | crcByte | crcBuf
  | getu | gets | gets38 | getsm | setu | sets
deriving DecidableEq, Repr

/-- What the host puts on the ports `cmd` and `arg` for one command (R60). -/
structure Command where
  cmd : Word
  arg : Word
deriving DecidableEq, Repr

/-- A decoded command (R63, R69): the operands its row names, and the argument word for the two rows that read it (R66). -/
inductive Instr where
  | nop
  | reset
  | push (d : Byte)
  | status
  | bufRd (idx : Nat)
  | bufWr (idx : Nat) (d : Byte)
  | crcInit
  | crcByte (d : Byte)
  | crcBuf (n : Nat)
  | getu (pos len : Nat)
  | gets (pos len : Nat)
  | gets38 (pos : Nat)
  | getsm (pos len : Nat)
  | setu (pos len : Nat) (arg : Word)
  | sets (pos len : Nat) (arg : Word)
deriving DecidableEq, Repr

end Sys2Proof
end

