-- ==== Sys2Proof/WellFormed.lean ====
section
/-! DEFINITION. Which commands have an encoding: R69 "An assembler refuses an operand that does not fit its field
(d > 255, i or pos or n > 16383, len > 63)". A data byte fits by its type. An operand that fits its field and breaks R62
is well formed: the block answers RANGE for it. -/

namespace Sys2Proof

/-- A byte index, byte count or bit position fits the 14-bit field F14 (R61, R69). -/
abbrev FitsF14 (n : Nat) : Prop := n < 2 ^ 14

/-- A width fits the 6-bit field LEN (R61, R69). -/
abbrev FitsLen (n : Nat) : Prop := n < 2 ^ 6

/-- The command's operands fit their fields. -/
def Instr.wf : Instr → Bool
  | .nop | .reset | .push _ | .status | .crcInit | .crcByte _ => true
  | .bufRd idx => decide (FitsF14 idx)
  | .bufWr idx _ => decide (FitsF14 idx)
  | .crcBuf n => decide (FitsF14 n)
  | .getu pos len => decide (FitsF14 pos) && decide (FitsLen len)
  | .gets pos len => decide (FitsF14 pos) && decide (FitsLen len)
  | .gets38 pos => decide (FitsF14 pos)
  | .getsm pos len => decide (FitsF14 pos) && decide (FitsLen len)
  | .setu pos len _ => decide (FitsF14 pos) && decide (FitsLen len)
  | .sets pos len _ => decide (FitsF14 pos) && decide (FitsLen len)

end Sys2Proof
end

