-- ==== Sys2Proof/Decode.lean ====
section
/-! DEFINITION. From command words to commands and back: the fields of R61, the opcode map and the must-be-zero masks of
R63, the encoding checks of R64, R65 and R75, and the assembler of R69. The operand ranges of R62 are no matter of
decoding here: the meanings check them, after the encoding checks, in the order of R75. -/

namespace Sys2Proof

/-- `OP = cmd[31:28]` (R61). -/
def opField (cmd : Word) : BitVec 4 := cmd.extractLsb' 28 4

/-- `LEN = cmd[27:22]`, an unsigned number (R61). -/
def lenField (cmd : Word) : Nat := (cmd.extractLsb' 22 6).toNat

/-- `F14 = cmd[21:8]`, an unsigned number: POS, IDX or N (R61). -/
def f14Field (cmd : Word) : Nat := (cmd.extractLsb' 8 14).toNat

/-- `DATA = cmd[7:0]` (R61). -/
def dataField (cmd : Word) : Byte := cmd.extractLsb' 0 8

/-- The opcode values of R63. -/
def Opcode.code : Opcode → BitVec 4
  | .nop => 0x0#4
  | .reset => 0x1#4
  | .push => 0x2#4
  | .status => 0x3#4
  | .bufRd => 0x4#4
  | .bufWr => 0x5#4
  | .crcInit => 0x6#4
  | .crcByte => 0x7#4
  | .crcBuf => 0x8#4
  | .getu => 0x9#4
  | .gets => 0xA#4
  | .gets38 => 0xB#4
  | .getsm => 0xC#4
  | .setu => 0xD#4
  | .sets => 0xE#4

/-- The opcode map of R63 read from a word's OP field; 0xF is reserved (R65). -/
def Opcode.ofCode (op : BitVec 4) : Option Opcode :=
  match op.toNat with
  | 0 => some .nop
  | 1 => some .reset
  | 2 => some .push
  | 3 => some .status
  | 4 => some .bufRd
  | 5 => some .bufWr
  | 6 => some .crcInit
  | 7 => some .crcByte
  | 8 => some .crcBuf
  | 9 => some .getu
  | 10 => some .gets
  | 11 => some .gets38
  | 12 => some .getsm
  | 13 => some .setu
  | 14 => some .sets
  | _ => none

/-- `MBZ(OP)` of R75: the "must be zero" bits of the row of R63. -/
def Opcode.mbz : Opcode → Word
  | .nop => 0x0FFFFFFF#32
  | .reset => 0x0FFFFFFF#32
  | .push => 0x0FFFFF00#32
  | .status => 0x0FFFFFFF#32
  | .bufRd => 0x0FC000FF#32
  | .bufWr => 0x0FC00000#32
  | .crcInit => 0x0FFFFFFF#32
  | .crcByte => 0x0FFFFF00#32
  | .crcBuf => 0x0FC000FF#32
  | .getu => 0x000000FF#32
  | .gets => 0x000000FF#32
  | .gets38 => 0x0FC000FF#32
  | .getsm => 0x000000FF#32
  | .setu => 0x000000FF#32
  | .sets => 0x000000FF#32

/-- Whether the row reads the argument word (R66). -/
def Opcode.readsArg : Opcode → Bool
  | .setu | .sets => true
  | .nop | .reset | .push | .status | .bufRd | .bufWr | .crcInit | .crcByte | .crcBuf
  | .getu | .gets | .gets38 | .getsm => false

/-- The command of an opcode, its operands taken from the words' fields (R61, R63, R66). -/
def Opcode.operands (op : Opcode) (c : Command) : Instr :=
  match op with
  | .nop => .nop
  | .reset => .reset
  | .push => .push (dataField c.cmd)
  | .status => .status
  | .bufRd => .bufRd (f14Field c.cmd)
  | .bufWr => .bufWr (f14Field c.cmd) (dataField c.cmd)
  | .crcInit => .crcInit
  | .crcByte => .crcByte (dataField c.cmd)
  | .crcBuf => .crcBuf (f14Field c.cmd)
  | .getu => .getu (f14Field c.cmd) (lenField c.cmd)
  | .gets => .gets (f14Field c.cmd) (lenField c.cmd)
  | .gets38 => .gets38 (f14Field c.cmd)
  | .getsm => .getsm (f14Field c.cmd) (lenField c.cmd)
  | .setu => .setu (f14Field c.cmd) (lenField c.cmd) c.arg
  | .sets => .sets (f14Field c.cmd) (lenField c.cmd) c.arg

/-- Why a command word is illegal. -/
inductive Illegal where
  /-- `OP = 0xF` (R65). -/
  | reservedOpcode
  /-- A 1 in a must-be-zero bit of the opcode's row (R64). -/
  | mustBeZero (op : Opcode)
deriving DecidableEq, Repr

/-- What the decoder makes of a command: an instruction, or a rejection by name. -/
inductive Decoded where
  | instr (i : Instr)
  | illegal (why : Illegal)
deriving DecidableEq, Repr

/-- The encoding checks of R75 in its order, then the operands. Total on every pair of words. -/
def decode (c : Command) : Decoded :=
  match Opcode.ofCode (opField c.cmd) with
  | none => .illegal .reservedOpcode
  | some op =>
    if c.cmd &&& op.mbz = 0#32 then .instr (op.operands c)
    else .illegal (.mustBeZero op)

/-- The row of R63 that an instruction belongs to. -/
def Instr.opcode : Instr → Opcode
  | .nop => .nop
  | .reset => .reset
  | .push _ => .push
  | .status => .status
  | .bufRd _ => .bufRd
  | .bufWr _ _ => .bufWr
  | .crcInit => .crcInit
  | .crcByte _ => .crcByte
  | .crcBuf _ => .crcBuf
  | .getu _ _ => .getu
  | .gets _ _ => .gets
  | .gets38 _ => .gets38
  | .getsm _ _ => .getsm
  | .setu _ _ _ => .setu
  | .sets _ _ _ => .sets

/-- A command word from its four fields, `OP ‖ LEN ‖ F14 ‖ DATA` (R61). -/
def assemble (op : Opcode) (len f14 : Nat) (data : Byte) : Word :=
  op.code ++ BitVec.ofNat 6 len ++ BitVec.ofNat 14 f14 ++ data

/-- The assembler of R69: the words of a well-formed instruction; `arg` is 0 where the row does not read it. -/
def encode : Instr → Command
  | .nop => ⟨assemble .nop 0 0 0, 0⟩
  | .reset => ⟨assemble .reset 0 0 0, 0⟩
  | .push d => ⟨assemble .push 0 0 d, 0⟩
  | .status => ⟨assemble .status 0 0 0, 0⟩
  | .bufRd idx => ⟨assemble .bufRd 0 idx 0, 0⟩
  | .bufWr idx d => ⟨assemble .bufWr 0 idx d, 0⟩
  | .crcInit => ⟨assemble .crcInit 0 0 0, 0⟩
  | .crcByte d => ⟨assemble .crcByte 0 0 d, 0⟩
  | .crcBuf n => ⟨assemble .crcBuf 0 n 0, 0⟩
  | .getu pos len => ⟨assemble .getu len pos 0, 0⟩
  | .gets pos len => ⟨assemble .gets len pos 0, 0⟩
  | .gets38 pos => ⟨assemble .gets38 0 pos 0, 0⟩
  | .getsm pos len => ⟨assemble .getsm len pos 0, 0⟩
  | .setu pos len arg => ⟨assemble .setu len pos 0, arg⟩
  | .sets pos len arg => ⟨assemble .sets len pos 0, arg⟩

/-- The command whose bits are the low `nbits` bits of `w`, every higher bit 0: bits 31..0 are the command word, bits 63..32
the argument word (log 10). -/
def commandOfBits (nbits w : Nat) : Command :=
  { cmd := BitVec.ofNat 32 (w % 2 ^ nbits), arg := BitVec.ofNat 32 (w % 2 ^ nbits / 2 ^ 32) }

/-- The instruction the decoder reads from a word of the opcode table; none where it rejects. -/
def decodeTableWord (nbits w : Nat) : Option Instr :=
  match decode (commandOfBits nbits w) with
  | .instr i => some i
  | .illegal _ => none

end Sys2Proof
end

