-- ==== Sys2Proof/Config.lean ====
section
/-! DEFINITION. The implementation parameters of spec R5: the fixed ones, and the two OPEN ones as constants with no body. -/

namespace Sys2Proof.Config

/-- `PREAMBLE`, the byte that starts a frame (R5). -/
def preamble : Byte := 0xD3#8

/-- `BUF_BYTES` = 3 + 1023 + 3 (R5). -/
abbrev bufBytes : Nat := 1029

/-- `BUF_BITS` = 8 × `BUF_BYTES` (R5). -/
abbrev bufBits : Nat := 8232

/-- `MAX_PAYLOAD`, the largest declared payload length (R5). -/
abbrev maxPayload : Nat := 1023

/-- `CRC_POLY` without its x²⁴ term (R5, R130). -/
def crcPoly : Crc := 0x864CFB#24

/-- `CRC_INIT`, the initial value of the CRC register (R5). The command of the same name is `Instr.crcInit`. -/
def crcInitial : Crc := 0#24

/-- `FIELD_MIN` and `FIELD_MAX`: the legal widths of a bit-field (R5). -/
abbrev fieldMin : Nat := 1
abbrev fieldMax : Nat := 32

/-- `S38_WIDTH`, the width of the derived signed field (R5). -/
abbrev s38Width : Nat := 38

/-- `BUF_INIT` (R5, R34, R230, K1.1), an OPEN parameter: what buffer byte `i` holds after power-on until something writes
it. A free value: no body, so no proof can use a value of it. Log 5, log 6. -/
opaque bufInit : Nat → Byte

/-- `CMD_LATENCY` (R5, R239, K1.2), an OPEN parameter: the time from a command (`cmd`, `arg`) to its response. No rule
depends on it and nothing in the model reads it. Log 8. -/
opaque cmdLatency : Word → Word → Nat

end Sys2Proof.Config
end

