-- ==== Sys2Proof/Machine/State.lean ====
section
/-! DEFINITION. The state of the block: the registers and the buffer of spec R22, and the host's side of the interface of
R60 (the commands not yet performed, the response of the last one) as plain data. -/

namespace Sys2Proof.Machine

/-- The framer's synchronization states (R23). The codes 5, 6 and 7 are never held, so the type leaves them out (K1.7). -/
inductive FrState where
  /-- Waiting for a preamble byte. -/
  | idle
  /-- Waiting for header byte 1. -/
  | len1
  /-- Waiting for header byte 2. -/
  | len2
  /-- Waiting for payload bytes. -/
  | payload
  /-- Waiting for trailer bytes. -/
  | crc
deriving DecidableEq, Repr

/-- The response statuses (R68). The codes 6 to 15 are never produced, so the type leaves them out (K1.6). -/
inductive Status where
  | ok | frame | crcErr | range | busy | illegal
deriving DecidableEq, Repr

/-- What the ports `status` and `rdata` carry after a command (R60, R67). -/
structure Response where
  status : Status
  rdata : Data
deriving DecidableEq, Repr

/-- One input of the host, taken between commands: a command (R60) or an assertion of `rst` (R230). -/
inductive HostInput where
  | command (c : Command)
  | rst
deriving DecidableEq, Repr

/-- The frame buffer as the list of the bytes written since power-on, `(index, byte)`, indices strictly rising. An index not
listed reads as no value written; the machine then reads `Config.bufInit` there (R56; log 5). -/
abbrev Memory := List Host.Cell

/-- The whole state (R22), the host's inputs not yet performed, and the response of the last step (R60). -/
structure State where
  /-- `fr_state`, the synchronization state (R23). -/
  frState : FrState
  /-- `fr_fill`, the bytes of the current frame stored so far (R24). -/
  frFill : BitVec 11
  /-- `fr_len`, the declared payload length of the current or last frame (R25). -/
  frLen : BitVec 10
  /-- `fr_ready`: the buffer holds, unchanged, the last frame emitted (R26). -/
  frReady : Bool
  /-- `fr_resv`: the current or last frame had a nonzero reserved field (R27). -/
  frResv : Bool
  /-- `crc_acc`, the generator's accumulator (R28). -/
  crcAcc : Crc
  /-- `buf[0..1028]`, the frame buffer (R29). -/
  buf : Memory
  /-- The model's own: the host's inputs issued and not yet performed, oldest first (R50; log 1). -/
  pending : List HostInput
  /-- The model's own: the response of the last step, none where it gave none (R60, R230; log 3). -/
  response : Option Response
deriving DecidableEq, Repr

/-- Why the machine stops. -/
inductive Fault where
  /-- Raised by PUSH alone, when it would store at an `fr_fill` above 1028, an index that does not exist (R40, R49). R24 rules
  such an `fr_fill` out after every command, so no run from reset raises it. Safe: the model stops, it makes no claim. Log 7. -/
  | storeOutsideBuffer (index : Nat)
deriving DecidableEq, Repr

/-- Why the model gives an instruction no meaning. -/
inductive Refusal where
  /-- Raised by the dispatch for an instruction that has no meaning yet; no arm raises it in this model. Safe: nothing is
  claimed of the instruction. -/
  | notModelled (mnemonic : String)
deriving DecidableEq, Repr

/-- The machine right after power-on reset (R34, R230): every register 0 and IDLE, no buffer byte written, no command issued
(log 1), no response given (log 3). -/
def State.reset : State where
  frState := .idle
  frFill := 0
  frLen := 0
  frReady := false
  frResv := false
  crcAcc := 0
  buf := []
  pending := []
  response := none

end Sys2Proof.Machine
end

