-- ==== Sys2Proof/Machine/Ops.lean ====
section
/-! DEFINITION. The shared operations over the buffer and the registers: reading and writing a byte (R10, R56), the
response primitives `respond` and `fail` (R10), which take the place of an exception (R200, R207), the host write guard
(R201), the two resets (R34, R181, R230), and the codes of the enumerated registers and statuses (R23, R68). -/

namespace Sys2Proof.Machine

/-- The byte written at index `i` since power-on; none where nothing has written it. -/
def Memory.read : Memory → Nat → Option Byte
  | [], _ => none
  | (k, b) :: rest, i => if i = k then some b else Memory.read rest i

/-- `buf[i]` (R10, R56): the byte most recently written at `i`, or `BUF_INIT(i)` if none has been since power-on. -/
def Memory.byte (m : Memory) (i : Nat) : Byte := (m.read i).getD (Config.bufInit i)

/-- `buf[i] <- b` (R10): the byte at `i` replaced or inserted in its place, the indices kept strictly rising. -/
def Memory.write : Memory → Nat → Byte → Memory
  | [], i, b => [(i, b)]
  | (k, v) :: rest, i, b =>
    if i < k then (i, b) :: (k, v) :: rest
    else if i = k then (i, b) :: rest
    else (k, v) :: Memory.write rest i b

/-- The canonical form of the buffer: indices strictly rising, and all of them in the buffer (R40, R49). An entry is a byte
and an unlisted index reads as no value, so no entry equals what an unlisted index reads as (log 5). -/
abbrev Memory.wf (m : Memory) : Prop :=
  m.Pairwise (fun x y => x.1 < y.1) ∧ ∀ c ∈ m, c.1 < Config.bufBytes

/-- `MemRead(i, 3) = buf[i] ‖ buf[i+1] ‖ buf[i+2]`, the big-endian trailer read (R10, R43). -/
def Memory.read3 (m : Memory) (i : Nat) : Crc := m.byte i ++ m.byte (i + 1) ++ m.byte (i + 2)

/-- The code of a framer state in STATUS bits 2:0 (R23). -/
def FrState.code : FrState → BitVec 3
  | .idle => 0#3
  | .len1 => 1#3
  | .len2 => 2#3
  | .payload => 3#3
  | .crc => 4#3

/-- The 4-bit code of a status (R68). -/
def Status.code : Status → BitVec 4
  | .ok => 0#4
  | .frame => 1#4
  | .crcErr => 2#4
  | .range => 3#4
  | .busy => 4#4
  | .illegal => 5#4

/-- `respond(S, D)` (R10): the command ends with this response. -/
def State.respond (s : State) (st : Status) (d : Data) : State := { s with response := some ⟨st, d⟩ }

/-- `fail(S)` = `respond(S, 0)` with every piece of state as it was before the command (R10, R202). -/
def State.fail (s : State) (st : Status) : State := s.respond st 0#64

/-- A host write of the buffer (R184, R106, R107): BUSY while a frame is in flight (R201, R233), else the new contents, with
`fr_ready` cleared (R26). -/
def State.hostWrite (s : State) (m : Memory) : State :=
  if s.frState = .idle then { s with buf := m, frReady := false }.respond .ok 0#64
  else s.fail .busy

/-- The registers at their reset values (R34, R181, R231); the buffer is not touched. -/
def State.resetRegisters (s : State) : State :=
  { s with
    frState := .idle
    frFill := 0
    frLen := 0
    frReady := false
    frResv := false
    crcAcc := Config.crcInitial }

/-- The step that `rst` causes (R230): the registers at their reset values, every buffer byte `BUF_INIT`, no response. -/
def State.powerOn (s : State) : State := { s.resetRegisters with buf := [], response := none }

/-- A step in which the host has issued nothing: the block holds its state (R150, R214; log 4). -/
def State.hold (s : State) : State := s

end Sys2Proof.Machine
end

