-- ==== Sys2Proof/Machine/Operands.lean ====
section
/-! DEFINITION. The operands of the bit-field commands: the bit view of the buffer (R7, R41, R100), fields read and written
there (R101, R106), the range checks of R62, and the readings of a bit pattern as a number (R9). -/

namespace Sys2Proof.Machine

/-- `BufBit(i)` (R100): bit `7 − (i mod 8)` of `buf[i div 8]`. -/
def Memory.bit (m : Memory) (i : Nat) : Bool := (m.byte (i / 8)).getLsbD (7 - i % 8)

/-- A byte with bit `j` (0 = least significant) set to `v` and its other bits kept (R106). -/
def setByteBit (b : Byte) (j : Nat) (v : Bool) : Byte :=
  if v then b ||| 1#8 <<< j else b &&& ~~~(1#8 <<< j)

/-- `BufBit(i) <- v` (R106). -/
def Memory.setBit (m : Memory) (i : Nat) (v : Bool) : Memory :=
  m.write (i / 8) (setByteBit (m.byte (i / 8)) (7 - i % 8) v)

/-- `getu(pos, n)` (R101): the n-bit number whose most significant bit is `BufBit(pos)` and whose least significant bit is
`BufBit(pos + n − 1)`. -/
def Memory.getu (m : Memory) (pos : Nat) : Nat → Nat
  | 0 => 0
  | n + 1 => 2 * Memory.getu m pos n + (m.bit (pos + n)).toNat

/-- The first `k` turns of the loop of R106: `BufBit(pos + j) <- v[len − 1 − j]` for j = 0 .. k − 1. -/
def Memory.writeBits (m : Memory) (pos len : Nat) (v : Word) : Nat → Memory
  | 0 => m
  | k + 1 => (Memory.writeBits m pos len v k).setBit (pos + k) (v.getLsbD (len - 1 - k))

/-- The whole loop of R106 and R107: the low `len` bits of `v`, most significant first, at `pos`. -/
def Memory.writeField (m : Memory) (pos len : Nat) (v : Word) : Memory := m.writeBits pos len v len

/-- The range of LEN and POS for GETU, GETS, GETSM, SETU and SETS (R62). -/
abbrev FieldInRange (pos len : Nat) : Prop :=
  Config.fieldMin ≤ len ∧ len ≤ Config.fieldMax ∧ pos + len ≤ Config.bufBits

/-- The range of POS for GETS38 (R62). -/
abbrev Field38InRange (pos : Nat) : Prop := pos + Config.s38Width ≤ Config.bufBits

/-- The range of IDX for BUF_RD and BUF_WR (R62: `IDX` ≤ 1028). -/
abbrev IndexInRange (idx : Nat) : Prop := idx < Config.bufBytes

/-- The range of N for CRC_BUF (R62). -/
abbrev CountInRange (n : Nat) : Prop := n ≤ Config.bufBytes

/-- The range of `arg` for SETU (R62). -/
abbrev UnsignedFits (len : Nat) (arg : Word) : Prop := arg.toNat < 2 ^ len

/-- The range of `sval_32(arg)` for SETS (R62), for `len` ≥ 1. -/
abbrev SignedFits (len : Nat) (arg : Word) : Prop :=
  -(2 ^ (len - 1) : Int) ≤ arg.toInt ∧ arg.toInt < 2 ^ (len - 1)

/-- `sval_w(v)` (R9): the integer that the w-bit pattern `v` denotes in two's complement. -/
def sval (w v : Nat) : Int := if 2 * v < 2 ^ w then v else v - 2 ^ w

/-- `zext_64(v)` of an unsigned number (R9). -/
def zext64 (v : Nat) : Data := BitVec.ofNat 64 v

/-- `tc_64(x)` (R9): the 64-bit two's-complement pattern of an integer. -/
def tc64 (x : Int) : Data := BitVec.ofInt 64 x

end Sys2Proof.Machine
end

