-- ==== Sys2Proof/Machine/BitField.lean ====
section
/-! DEFINITION. The bit-field extractor and writer: GETU, GETS, GETS38, GETSM (R102 to R105), SETU and SETS (R106, R107). -/

namespace Sys2Proof.Machine

/-- GETU (R102): the field as an unsigned number. -/
def execGetu (pos len : Nat) (s : State) : Host.Outcome State Fault Refusal :=
  if FieldInRange pos len then .next (s.respond .ok (zext64 (s.buf.getu pos len)))
  else .next (s.fail .range)

/-- GETS (R103): the field as a two's-complement number. -/
def execGets (pos len : Nat) (s : State) : Host.Outcome State Fault Refusal :=
  if FieldInRange pos len then .next (s.respond .ok (tc64 (sval len (s.buf.getu pos len))))
  else .next (s.fail .range)

/-- `hi * 64 + lo` of R104: 32 signed bits, then 6 unsigned bits. -/
def Memory.gets38 (m : Memory) (pos : Nat) : Int :=
  sval 32 (m.getu pos 32) * 64 + (m.getu (pos + 32) 6 : Int)

/-- GETS38 (R104). -/
def execGets38 (pos : Nat) (s : State) : Host.Outcome State Fault Refusal :=
  if Field38InRange pos then .next (s.respond .ok (tc64 (s.buf.gets38 pos)))
  else .next (s.fail .range)

/-- The value of R105: the top bit is the sign, the other `len − 1` bits the magnitude. -/
def Memory.getsm (m : Memory) (pos len : Nat) : Int :=
  if m.bit pos then -(m.getu (pos + 1) (len - 1) : Int) else (m.getu (pos + 1) (len - 1) : Int)

/-- GETSM (R105). -/
def execGetsm (pos len : Nat) (s : State) : Host.Outcome State Fault Refusal :=
  if FieldInRange pos len then .next (s.respond .ok (tc64 (s.buf.getsm pos len)))
  else .next (s.fail .range)

/-- SETU (R106): RANGE before BUSY (R204). -/
def execSetu (pos len : Nat) (arg : Word) (s : State) : Host.Outcome State Fault Refusal :=
  if FieldInRange pos len ∧ UnsignedFits len arg then
    .next (s.hostWrite (s.buf.writeField pos len arg))
  else .next (s.fail .range)

/-- SETS (R107): RANGE before BUSY (R204). -/
def execSets (pos len : Nat) (arg : Word) (s : State) : Host.Outcome State Fault Refusal :=
  if FieldInRange pos len ∧ SignedFits len arg then
    .next (s.hostWrite (s.buf.writeField pos len arg))
  else .next (s.fail .range)

end Sys2Proof.Machine
end

