-- ==== Sys2Proof/Machine/Flags.lean ====
section
/-! DEFINITION. The flags and the packed views of the registers: the reserved-bits flag and the declared length taken from a
header (R27, R71), `STATUS_WORD` (R31), and the completion word of PUSH (R157). -/

namespace Sys2Proof.Machine

/-- `(buf[1] & 0xFC) ≠ 0` (R27), for header byte 1. -/
def reservedFlag (b1 : Byte) : Bool := decide (b1 &&& 0xFC#8 ≠ 0#8)

/-- `((buf[1] & 0x03) << 8) | buf[2]` (R71, R154), for header bytes 1 and 2. -/
def declaredLength (b1 b2 : Byte) : BitVec 10 :=
  ((b1 &&& 0x03#8).setWidth 10 <<< 8) ||| b2.setWidth 10

/-- `STATUS_WORD = zext_64(crc_acc ‖ fr_fill ‖ fr_len ‖ fr_resv ‖ fr_ready ‖ fr_state)` (R31). -/
def State.statusWord (s : State) : Data :=
  (s.crcAcc ++ s.frFill ++ s.frLen ++ BitVec.ofBool s.frResv ++ BitVec.ofBool s.frReady
    ++ s.frState.code).setWidth 64

/-- `info = zext_64(received ‖ computed ‖ fr_resv ‖ zext_11(T))` (R151, R157). -/
def completionInfo (received computed : Crc) (resv : Bool) (t : Nat) : Data :=
  (received ++ computed ++ BitVec.ofBool resv ++ BitVec.ofNat 11 t).setWidth 64

end Sys2Proof.Machine
end

