-- ==== Sys2Proof/Machine/Control.lean ====
section
/-! DEFINITION. The control and buffer-access commands: NOP, RESET, STATUS, BUF_RD and BUF_WR (R180 to R184). -/

namespace Sys2Proof.Machine

/-- NOP (R180). -/
def execNop (s : State) : Host.Outcome State Fault Refusal := .next (s.respond .ok 0#64)

/-- RESET (R181): the registers, not the buffer. -/
def execReset (s : State) : Host.Outcome State Fault Refusal := .next (s.resetRegisters.respond .ok 0#64)

/-- STATUS (R182). -/
def execStatus (s : State) : Host.Outcome State Fault Refusal := .next (s.respond .ok s.statusWord)

/-- BUF_RD (R183). -/
def execBufRd (idx : Nat) (s : State) : Host.Outcome State Fault Refusal :=
  if IndexInRange idx then .next (s.respond .ok ((s.buf.byte idx).setWidth 64))
  else .next (s.fail .range)

/-- BUF_WR (R184): RANGE before BUSY (R204). -/
def execBufWr (idx : Nat) (d : Byte) (s : State) : Host.Outcome State Fault Refusal :=
  if IndexInRange idx then .next (s.hostWrite (s.buf.write idx d))
  else .next (s.fail .range)

end Sys2Proof.Machine
end

