-- ==== Sys2Proof/Machine/Crc.lean ====
section
/-! DEFINITION. The CRC-24Q generator: the lookup table (R131), the byte update (R132), the CRC of a buffer prefix (R133),
and the commands CRC_INIT, CRC_BYTE and CRC_BUF (R135 to R137). -/

namespace Sys2Proof.Machine

/-- One turn of the loop of R131 on the 24-bit register: shift left, and reduce by the polynomial if bit 23 was 1. -/
def crcShift (r : Crc) : Crc :=
  if r.getLsbD 23 then (r <<< 1) ^^^ Config.crcPoly else r <<< 1

/-- `n` turns of that loop. -/
def crcShifts : Nat → Crc → Crc
  | 0, r => r
  | n + 1, r => crcShifts n (crcShift r)

/-- `TBL[i]` (R131). -/
def crcTable (i : Byte) : Crc := crcShifts 8 (i.setWidth 24 <<< 16)

/-- `crc_step(c, d) = ((c << 8) & 0xFFFFFF) ^ TBL[((c >> 16) ^ d) & 0xFF]` (R132). -/
def crcStep (c : Crc) (d : Byte) : Crc := (c <<< 8) ^^^ crcTable ((c >>> 16).setWidth 8 ^^^ d)

/-- One bit-serial step of R132 on data bit `k` of `d`: `fb = c[23] ^ d[k]`, shift left, reduce by the polynomial if `fb` is 1. -/
def crcSerialBit (d : Byte) (c : Crc) (k : Nat) : Crc :=
  if c.getLsbD 23 != d.getLsbD k then (c <<< 1) ^^^ Config.crcPoly else c <<< 1

/-- The eight bit-serial steps of R132, most significant data bit first. No command uses them: R132 says they give `crc_step`. -/
def crcSerial (c : Crc) (d : Byte) : Crc := [7, 6, 5, 4, 3, 2, 1, 0].foldl (crcSerialBit d) c

/-- `crc24q(n)` (R133): the CRC of `buf[0] .. buf[n − 1]` from the initial value. -/
def Memory.crc24q (m : Memory) : Nat → Crc
  | 0 => Config.crcInitial
  | n + 1 => crcStep (Memory.crc24q m n) (m.byte n)

/-- CRC_INIT (R135). -/
def execCrcInit (s : State) : Host.Outcome State Fault Refusal :=
  .next ({ s with crcAcc := Config.crcInitial }.respond .ok 0#64)

/-- CRC_BYTE (R136): the response carries the new accumulator. -/
def execCrcByte (d : Byte) (s : State) : Host.Outcome State Fault Refusal :=
  .next ({ s with crcAcc := crcStep s.crcAcc d }.respond .ok ((crcStep s.crcAcc d).setWidth 64))

/-- CRC_BUF (R137): from the initial value, not from `crc_acc`. -/
def execCrcBuf (n : Nat) (s : State) : Host.Outcome State Fault Refusal :=
  if CountInRange n then
    .next ({ s with crcAcc := s.buf.crc24q n }.respond .ok ((s.buf.crc24q n).setWidth 64))
  else .next (s.fail .range)

end Sys2Proof.Machine
end

