-- ==== Sys2Proof/Machine/Framer.lean ====
section
/-! DEFINITION. The frame synchronizer and framer: PUSH (R151), one definition per arm (R152 to R156), the end of a frame
(R157, R158), the wire frame a sender builds (R70), and the system code of a response to PUSH (R163). -/

namespace Sys2Proof.Machine

/-- The IDLE arm (R152): a preamble starts a frame, any other byte changes nothing. -/
def pushIdle (d : Byte) (s : State) : State :=
  if d = Config.preamble then
    { s with
      buf := s.buf.write 0 d
      frFill := 1
      frLen := 0
      frReady := false
      frResv := false
      frState := .len1 }.respond .ok 0#64
  else s.respond .ok 0#64

/-- The LEN1 arm (R153). -/
def pushLen1 (d : Byte) (s : State) : State :=
  { s with buf := s.buf.write 1 d, frFill := 2, frState := .len2 }.respond .ok 0#64

/-- The LEN2 arm (R154): the length and the reserved-bits flag are taken from the header, `buf[2]` being the byte just stored. -/
def pushLen2 (d : Byte) (s : State) : State :=
  let m := s.buf.write 2 d
  let len := declaredLength (m.byte 1) (m.byte 2)
  { s with
    buf := m
    frFill := 3
    frLen := len
    frResv := reservedFlag (m.byte 1)
    frState := if len = 0 then .crc else .payload }.respond .ok 0#64

/-- `buf[fr_fill] <- d; fr_fill <- fr_fill + 1`, then the rest of the arm (R151); an `fr_fill` outside the buffer, which R24
rules out, stops the model (log 7). -/
def storeAtFill (d : Byte) (s : State) (rest : State → State) : Host.Outcome State Fault Refusal :=
  if s.frFill.toNat < Config.bufBytes then
    .next (rest { s with buf := s.buf.write s.frFill.toNat d, frFill := s.frFill + 1 })
  else .fault (.storeOutsideBuffer s.frFill.toNat)

/-- The PAYLOAD arm after its store (R155). -/
def pushPayload (s : State) : State :=
  { s with frState := if s.frFill.toNat = s.frLen.toNat + 3 then .crc else s.frState }.respond .ok 0#64

/-- The end of a frame (R156 to R158): back to IDLE, FRAME and `fr_ready` if the CRC over the first L + 3 bytes equals the
trailer, else CRC_ERR. -/
def completeFrame (s : State) : State :=
  let t := s.frLen.toNat + 3
  let computed := s.buf.crc24q t
  let received := s.buf.read3 t
  let info := completionInfo received computed s.frResv t
  if computed = received then
    { s with frState := .idle, frFill := 0, frReady := true }.respond .frame info
  else { s with frState := .idle, frFill := 0, frReady := false }.respond .crcErr info

/-- The CRC arm after its store (R156). -/
def pushCrc (s : State) : State :=
  if s.frFill.toNat < s.frLen.toNat + 6 then s.respond .ok 0#64 else completeFrame s

/-- PUSH (R151). -/
def execPush (d : Byte) (s : State) : Host.Outcome State Fault Refusal :=
  match s.frState with
  | .idle => .next (pushIdle d s)
  | .len1 => .next (pushLen1 d s)
  | .len2 => .next (pushLen2 d s)
  | .payload => storeAtFill d s pushPayload
  | .crc => storeAtFill d s pushCrc

/-- The CRC of a byte sequence (R133 over bytes that need not stand in the buffer; R134, R138). -/
def crcOfBytes (bytes : List Byte) : Crc := bytes.foldl crcStep Config.crcInitial

/-- The three trailer bytes of a CRC value, most significant first (R43, R70, R134). -/
def trailerBytes (c : Crc) : List Byte := [c.extractLsb' 16 8, c.extractLsb' 8 8, c.extractLsb' 0 8]

/-- Preamble, reserved field and length (R70), then the payload: the first L + 3 bytes of a wire frame. -/
def frameBody (resv : BitVec 6) (payload : List Byte) : List Byte :=
  let len := BitVec.ofNat 10 payload.length
  Config.preamble :: (resv ++ len.extractLsb' 8 2) :: len.extractLsb' 0 8 :: payload

/-- The frame a sender puts on the wire for a payload of at most 1023 bytes (R70). -/
def wireFrame (resv : BitVec 6) (payload : List Byte) : List Byte :=
  frameBody resv payload ++ trailerBytes (crcOfBytes (frameBody resv payload))

/-- The system code that stands for a response to PUSH (R163): 0 for OK and CRC_ERR, for FRAME what the dispatcher outside
the block returns. The other statuses never answer a PUSH. Log 12. -/
def systemCode (dispatcher : Int) : Status → Option Int
  | .ok => some 0
  | .crcErr => some 0
  | .frame => some dispatcher
  | .range => none
  | .busy => none
  | .illegal => none

end Sys2Proof.Machine
end

