-- ==== Sys2Proof/Machine/Dispatch.lean ====
section
/-! DEFINITION. One arm per command, each a direct call of its meaning. -/

namespace Sys2Proof.Machine

def exec (i : Instr) (s : State) : Host.Outcome State Fault Refusal :=
  match i with
  | .nop => Sys2Proof.Machine.execNop s
  | .reset => Sys2Proof.Machine.execReset s
  | .push d => Sys2Proof.Machine.execPush d s
  | .status => Sys2Proof.Machine.execStatus s
  | .bufRd idx => Sys2Proof.Machine.execBufRd idx s
  | .bufWr idx d => Sys2Proof.Machine.execBufWr idx d s
  | .crcInit => Sys2Proof.Machine.execCrcInit s
  | .crcByte d => Sys2Proof.Machine.execCrcByte d s
  | .crcBuf n => Sys2Proof.Machine.execCrcBuf n s
  | .getu pos len => Sys2Proof.Machine.execGetu pos len s
  | .gets pos len => Sys2Proof.Machine.execGets pos len s
  | .gets38 pos => Sys2Proof.Machine.execGets38 pos s
  | .getsm pos len => Sys2Proof.Machine.execGetsm pos len s
  | .setu pos len arg => Sys2Proof.Machine.execSetu pos len arg s
  | .sets pos len arg => Sys2Proof.Machine.execSets pos len arg s

end Sys2Proof.Machine
end

