-- ==== Sys2Proof/Machine/Step.lean ====
section
/-! DEFINITION. One step of the block (R11, R60, R75, R230): it takes the oldest input the host has issued. A command that
decodes is performed; one that does not answers ILLEGAL and changes nothing (R64, R65, R202); `rst` is power-on reset;
with no input the block holds its state. -/

namespace Sys2Proof.Machine

/-- One step. -/
def step (s : State) : Host.Outcome State Fault Refusal :=
  match s.pending with
  | [] => .next s.hold
  | .rst :: rest => .next { s with pending := rest }.powerOn
  | .command c :: rest =>
    match decode c with
    | .instr i => exec i { s with pending := rest }
    | .illegal _ => .next ({ s with pending := rest }.fail .illegal)

/-- The state with the command whose bits are `w` issued as the next input (log 2, log 10). -/
def State.withFetchWord (s : State) (nbits w : Nat) : State :=
  { s with pending := .command (commandOfBits nbits w) :: s.pending }

end Sys2Proof.Machine
end

