-- ==== Sys2Proof/Machine/Pseudo.lean ====
section
/-! DEFINITION. The pseudo-instructions of the assembler, each with its expansion (R69). -/

namespace Sys2Proof.Machine

/-- `PUSHN b0, …, bk` (R69): feed a byte sequence. -/
def pushN (bytes : List Byte) : List Instr := bytes.map .push

/-- `MSGTYPE` (R69, R73): read the message type of the held frame. -/
def msgType : Instr := .getu 24 12

/-- `FILL i, b0, …, bk` (R69): load bytes into the buffer from index `i`. -/
def fill : Nat → List Byte → List Instr
  | _, [] => []
  | i, b :: rest => .bufWr i b :: fill (i + 1) rest

/-- `CRC_BYTES b0, …, bk` (R69): run host bytes through the generator. -/
def crcBytes (bytes : List Byte) : List Instr := bytes.map .crcByte

end Sys2Proof.Machine
end

