-- ==== Sys2Proof/Safety.lean ====
section
/-! DEFINITION. What counts as a safe run, in the terms the claims use: the invariant of the framer and the buffer (R24 to
R27, R29), the words a host puts on the command port and what it gets back, and a byte stream fed to the framer. -/

namespace Sys2Proof.Machine

/-- The fill index by state (R24). -/
def FillInv (s : State) : Prop :=
  match s.frState with
  | .idle => s.frFill.toNat = 0
  | .len1 => s.frFill.toNat = 1
  | .len2 => s.frFill.toNat = 2
  | .payload => 3 ≤ s.frFill.toNat ∧ s.frFill.toNat ≤ s.frLen.toNat + 2 ∧ 1 ≤ s.frLen.toNat
  | .crc => s.frLen.toNat + 3 ≤ s.frFill.toNat ∧ s.frFill.toNat ≤ s.frLen.toNat + 5

/-- What the buffer holds of the frame in flight (R29), and the length and flag registers beside it (R25, R27). -/
def HeaderInv (s : State) : Prop :=
  match s.frState with
  | .idle => True
  | .len1 => s.buf.byte 0 = Config.preamble ∧ s.frLen = 0 ∧ s.frResv = false
  | .len2 => s.buf.byte 0 = Config.preamble ∧ s.frLen = 0 ∧ s.frResv = false
  | .payload | .crc =>
    s.buf.byte 0 = Config.preamble ∧ s.frLen = declaredLength (s.buf.byte 1) (s.buf.byte 2) ∧
      s.frResv = reservedFlag (s.buf.byte 1)

/-- The buffer holds a CRC-valid frame of length `fr_len` (R26, R29, R164). -/
def HoldsValidFrame (s : State) : Prop :=
  s.buf.byte 0 = Config.preamble ∧ s.frLen = declaredLength (s.buf.byte 1) (s.buf.byte 2) ∧
    s.frResv = reservedFlag (s.buf.byte 1) ∧
    s.buf.crc24q (s.frLen.toNat + 3) = s.buf.read3 (s.frLen.toNat + 3)

/-- The invariant of the block. -/
structure Inv (s : State) : Prop where
  /-- The buffer is in canonical form, the model's own choice (log 5), its indices inside the buffer (R40). -/
  bufWf : s.buf.wf
  /-- R24. -/
  fill : FillInv s
  /-- R25, R27, R29. -/
  header : HeaderInv s
  /-- R26: while `fr_ready` is 1 the framer is IDLE and the buffer holds the emitted frame. -/
  ready : s.frReady = true → s.frState = .idle ∧ HoldsValidFrame s

/-- A frame is in flight (R233). -/
def InFlight (s : State) : Prop := s.frState ≠ .idle

/-- The host's guard of R234: the `width` bits at `pos` lie in the header and payload of the held frame. The block does not check
it. -/
def InsideFrame (s : State) (pos width : Nat) : Prop := pos + width ≤ 8 * (s.frLen.toNat + 3)

/-- The host issues the command `c` in `s`, whatever it issues after it, and the block's one step answers with the state `t`. -/
def Answers (s : State) (c : Command) (t : State) : Prop :=
  ∀ rest, step { s with pending := .command c :: rest } = .next { t with pending := rest }

/-- The state `s` after a command answered `st` with data `d` and no other effect. -/
def answered (s : State) (st : Status) (d : Data) : State := { s with response := some ⟨st, d⟩ }

/-- The encoding part of a command's rule (R63, R64): a word with this OP decodes to the command when its must-be-zero bits
are clear, and is answered ILLEGAL with no effect when one of them is set. -/
def EncodedAs (op : BitVec 4) (mbz : Word) (command : Command → Instr) : Prop :=
  ∀ c : Command, c.cmd.extractLsb' 28 4 = op →
    (c.cmd &&& mbz = 0#32 → decode c = .instr (command c)) ∧
    (c.cmd &&& mbz ≠ 0#32 → ∀ s, Answers s c (answered s .illegal 0#64))

/-- Nothing of the registers, the buffer or the host's stream differs, only the response may (R32, R48). -/
def SameButResponse (s t : State) : Prop := { t with response := s.response } = s

/-- The commands performed one after the other in the host's order (R50), stopping where the machine stops. -/
def perform : List Instr → State → Host.Outcome State Fault Refusal
  | [], s => .next s
  | i :: rest, s =>
    match exec i s with
    | .next t => perform rest t
    | .fault r => .fault r
    | .refused r => .refused r

/-- The bytes pushed one by one (R44, R69 `PUSHN`). -/
def feed (bytes : List Byte) (s : State) : Host.Outcome State Fault Refusal := perform (pushN bytes) s

/-- The fields of a completion word of PUSH (R157). -/
def InfoSays (info : Data) (length : Nat) (resv : Bool) (computed received : Crc) : Prop :=
  (info.extractLsb' 0 11).toNat = length ∧ info.getLsbD 11 = resv ∧ info.extractLsb' 12 24 = computed ∧
    info.extractLsb' 36 24 = received ∧ info.extractLsb' 60 4 = 0#4

/-- The byte at `i` of `m` is `d` and every other byte of `m` reads as in `m'` (R46). -/
def OneByteStored (m' m : Memory) (i : Nat) (d : Byte) : Prop :=
  m.byte i = d ∧ ∀ a, a ≠ i → m.byte a = m'.byte a

/-- The field of `len` bits at `pos` of `m` holds the low `len` bits of `v`, most significant first, and every other bit, and
every byte that holds none of the field's bits, reads as in `m'` (R106). -/
def FieldStored (m' m : Memory) (pos len : Nat) (v : Word) : Prop :=
  (∀ j, j < len → m.bit (pos + (len - 1 - j)) = v.getLsbD j) ∧
    (∀ i, i < pos ∨ pos + len ≤ i → m.bit i = m'.bit i) ∧
    ∀ a, 8 * a + 8 ≤ pos ∨ pos + len ≤ 8 * a → m.byte a = m'.byte a

end Sys2Proof.Machine
end

