-- ==== Sys2Proof/Certificates/Slice0/Obligations.lean ====
section
/-! DEFINITION. The statements for the provers. Each docstring names the rules of spec/ it formalises. `Answers`, `answered`,
`EncodedAs`, `perform`, `feed`, `InfoSays`, `OneByteStored` and `FieldStored` stand in Sys2Proof/Safety.lean. -/

open Sys2Proof Sys2Proof.Machine

/-! ## Encoding -/

/-- R69: one word of every row, written out from the table of R69, decodes to its command. -/
def Obligations.SpecWordsDecode : Prop :=
  decode ⟨0x00000000, 0⟩ = .instr .nop ∧
  decode ⟨0x10000000, 0⟩ = .instr .reset ∧
  decode ⟨0x200000D3, 0⟩ = .instr (.push 0xD3) ∧
  decode ⟨0x30000000, 0⟩ = .instr .status ∧
  decode ⟨0x40040400, 0⟩ = .instr (.bufRd 1028) ∧
  decode ⟨0x50000511, 0⟩ = .instr (.bufWr 5 0x11) ∧
  decode ⟨0x60000000, 0⟩ = .instr .crcInit ∧
  decode ⟨0x70000055, 0⟩ = .instr (.crcByte 0x55) ∧
  decode ⟨0x80040600, 0⟩ = .instr (.crcBuf 1030) ∧
  decode ⟨0x93001800, 0⟩ = .instr (.getu 24 12) ∧
  decode ⟨0xA1C07900, 0⟩ = .instr (.gets 121 7) ∧
  decode ⟨0xB0200200, 0⟩ = .instr (.gets38 8194) ∧
  decode ⟨0xC4404800, 0⟩ = .instr (.getsm 72 17) ∧
  decode ⟨0xD3000A00, 0xABC⟩ = .instr (.setu 10 12 0xABC) ∧
  decode ⟨0xE1801E00, 0xFFFFFFE0⟩ = .instr (.sets 30 6 0xFFFFFFE0)

/-- R61, R63, R69: the decoder reads back every well-formed command from the words the assembler writes for it, every operand
at every value its field admits. -/
def Obligations.DecodeOfEncode : Prop := ∀ i : Instr, i.wf = true → decode (encode i) = .instr i

/-- R61, R63, R66: a command the decoder reads is well formed, and its words are the ones the assembler writes for it, the
argument word too where the row reads it; where it does not, the assembler writes 0. -/
def Obligations.EncodeOfDecode : Prop :=
  ∀ (c : Command) (i : Instr), decode c = .instr i →
    i.wf = true ∧ (encode i).cmd = c.cmd ∧
      (encode i).arg = if c.cmd.extractLsb' 28 4 = 0xD#4 ∨ c.cmd.extractLsb' 28 4 = 0xE#4 then c.arg else 0#32

/-- R64, R65, with the masks and matches of spec/opcode_table.json: a word that fits no row of the table is answered ILLEGAL and
nothing changes, a word that fits one is a command, and an opcode that uses no field has exactly one legal word. -/
def Obligations.WordsOutsideTheTableAreIllegal : Prop :=
  let fitsARow (w : Word) : Prop :=
    ∃ row ∈ [((0xFFFFFFFF : Word), (0x00000000 : Word)), (0xFFFFFFFF, 0x10000000), (0xFFFFFF00, 0x20000000),
        (0xFFFFFFFF, 0x30000000), (0xFFC000FF, 0x40000000), (0xFFC00000, 0x50000000), (0xFFFFFFFF, 0x60000000),
        (0xFFFFFF00, 0x70000000), (0xFFC000FF, 0x80000000), (0xF00000FF, 0x90000000), (0xF00000FF, 0xA0000000),
        (0xFFC000FF, 0xB0000000), (0xF00000FF, 0xC0000000), (0xF00000FF, 0xD0000000), (0xF00000FF, 0xE0000000)],
      w &&& row.1 = row.2
  (∀ (c : Command) (s : State), ¬ fitsARow c.cmd → Answers s c (answered s .illegal 0#64)) ∧
  (∀ c : Command, fitsARow c.cmd → ∃ i, decode c = .instr i) ∧
  ∀ c : Command, ∀ v ∈ [(0x0 : BitVec 4), 0x1, 0x3, 0x6], c.cmd.extractLsb' 28 4 = v →
    ((∃ i, decode c = .instr i) ↔ c.cmd = v ++ 0#28)

/-- R66: with an opcode other than those of SETU and SETS, the step does not depend on the argument word. -/
def Obligations.ArgumentWordIgnored : Prop :=
  ∀ (cmd a b : Word) (s : State) (rest : List HostInput),
    cmd.extractLsb' 28 4 ≠ 0xD#4 → cmd.extractLsb' 28 4 ≠ 0xE#4 →
    step { s with pending := .command ⟨cmd, a⟩ :: rest } = step { s with pending := .command ⟨cmd, b⟩ :: rest }

/-! ## The step -/

/-- R11, R60, R75: when the oldest input of the host is a command that decodes, the step is the meaning of the command, the input
taken off the stream. With no input the block holds its state, which is the model's reading of R150 and R214 (log 4). -/
def Obligations.StepPerformsDecodedCommand : Prop :=
  (∀ (s : State) (c : Command) (rest : List HostInput) (i : Instr),
    s.pending = .command c :: rest → decode c = .instr i → step s = exec i { s with pending := rest }) ∧
  ∀ s : State, s.pending = [] → step s = .next s

/-- R34, R230: the step of `rst` and the state after power-on give every register its reset value, every buffer byte its
`BUF_INIT` value, and no response. -/
def Obligations.PowerOnResetValues : Prop :=
  (∀ (s : State) (rest : List HostInput), ∃ t, step { s with pending := .rst :: rest } = .next t ∧
    t.frState = .idle ∧ t.frFill = 0#11 ∧ t.frLen = 0#10 ∧ t.frReady = false ∧ t.frResv = false ∧ t.crcAcc = 0#24 ∧
    (∀ i, i < 1029 → t.buf.byte i = Config.bufInit i) ∧ t.response = none ∧ t.pending = rest) ∧
  State.reset.frState = .idle ∧ State.reset.frFill = 0#11 ∧ State.reset.frLen = 0#10 ∧ State.reset.frReady = false ∧
    State.reset.frResv = false ∧ State.reset.crcAcc = 0#24 ∧ ∀ i, i < 1029 → State.reset.buf.byte i = Config.bufInit i

/-! ## Control and buffer access -/

/-- R180: NOP. -/
def Obligations.NopChangesNothing : Prop :=
  EncodedAs 0x0#4 0x0FFFFFFF#32 (fun _ => .nop) ∧ ∀ s, exec .nop s = .next (answered s .ok 0#64)

/-- R181, and the last column of R34: RESET gives every register its reset value and keeps the buffer. -/
def Obligations.ResetClearsRegistersKeepsBuffer : Prop :=
  EncodedAs 0x1#4 0x0FFFFFFF#32 (fun _ => .reset) ∧
  ∀ s, exec .reset s = .next
    { s with frState := .idle, frFill := 0#11, frLen := 0#10, frReady := false, frResv := false, crcAcc := 0#24,
             response := some ⟨.ok, 0#64⟩ }

/-- R31, R182, with the state codes of R23: STATUS answers the fields of the status view at their places. -/
def Obligations.StatusShowsEveryRegister : Prop :=
  EncodedAs 0x3#4 0x0FFFFFFF#32 (fun _ => .status) ∧
  ∀ s, ∃ w, exec .status s = .next (answered s .ok w) ∧
    w.extractLsb' 0 3 = (match s.frState with
      | .idle => 0#3 | .len1 => 1#3 | .len2 => 2#3 | .payload => 3#3 | .crc => 4#3) ∧
    w.getLsbD 3 = s.frReady ∧ w.getLsbD 4 = s.frResv ∧ w.extractLsb' 5 10 = s.frLen ∧
    w.extractLsb' 15 11 = s.frFill ∧ w.extractLsb' 26 24 = s.crcAcc ∧ w.extractLsb' 50 14 = 0#14

/-- R183: BUF_RD. -/
def Obligations.BufRdReadsByteOrRange : Prop :=
  EncodedAs 0x4#4 0x0FC000FF#32 (fun c => .bufRd (c.cmd.extractLsb' 8 14).toNat) ∧
  ∀ (s : State) (idx : Nat),
    (1028 < idx → exec (.bufRd idx) s = .next (answered s .range 0#64)) ∧
    (idx ≤ 1028 → exec (.bufRd idx) s = .next (answered s .ok ((s.buf.byte idx).setWidth 64)))

/-- R184: BUF_WR; RANGE before BUSY, and a successful write clears `fr_ready`. -/
def Obligations.BufWrWritesByteOrRangeOrBusy : Prop :=
  EncodedAs 0x5#4 0x0FC00000#32 (fun c => .bufWr (c.cmd.extractLsb' 8 14).toNat (c.cmd.extractLsb' 0 8)) ∧
  ∀ (s : State) (idx : Nat) (d : Byte),
    (1028 < idx → exec (.bufWr idx d) s = .next (answered s .range 0#64)) ∧
    (idx ≤ 1028 → s.frState ≠ .idle → exec (.bufWr idx d) s = .next (answered s .busy 0#64)) ∧
    (idx ≤ 1028 → s.frState = .idle → ∃ m, OneByteStored s.buf m idx d ∧
      exec (.bufWr idx d) s = .next { s with buf := m, frReady := false, response := some ⟨.ok, 0#64⟩ })

/-- R56, R34: a byte that nothing has written since power-on reads as `BUF_INIT`, a written one as the byte last written, whatever
was written before it. -/
def Obligations.ReadReturnsLastByteWritten : Prop :=
  (∀ i, i ≤ 1028 → exec (.bufRd i) State.reset = .next (answered State.reset .ok ((Config.bufInit i).setWidth 64))) ∧
  ∀ (s : State) (writes : List (Nat × Byte)) (i : Nat), s.frState = .idle → (∀ w ∈ writes, w.1 ≤ 1028) → i ≤ 1028 →
    ∃ t, perform (writes.map fun w => .bufWr w.1 w.2) s = .next t ∧
      exec (.bufRd i) t = .next (answered t .ok
        (((writes.reverse.find? fun w => w.1 == i).elim (s.buf.byte i) (fun w => w.2)).setWidth 64))

/-! ## The bit view and the bit-field commands -/

/-- R100, R101: the bits of the bit view, and a field as the sum of its bits. -/
def Obligations.FieldIsSumOfItsBits : Prop :=
  (∀ (m : Memory) (i : Nat), (m.bit i).toNat = ((m.byte (i >>> 3)).toNat >>> (7 - (i &&& 7))) &&& 1) ∧
  ∀ (m : Memory) (pos n : Nat),
    m.getu pos n = ∑ k ∈ Finset.range n, (m.bit (pos + k)).toNat <<< (n - 1 - k)

/-- R41, R42, R43: the two views show the same storage: a byte-aligned field of 8, 16 or 24 bits is that many bytes, the first
one most significant, and a byte written by BUF_WR is read by GETU. -/
def Obligations.ByteViewAndBitViewAgree : Prop :=
  (∀ (m : Memory) (k : Nat), m.getu (8 * k) 8 = (m.byte k).toNat ∧
    m.getu (8 * k) 16 = (m.byte k ++ m.byte (k + 1)).toNat ∧ m.getu (8 * k) 24 = (m.read3 k).toNat) ∧
  ∀ (s : State) (k : Nat) (d : Byte), s.frState = .idle → k ≤ 1028 →
    ∃ t, exec (.bufWr k d) s = .next t ∧ exec (.getu (8 * k) 8) t = .next (answered t .ok (d.setWidth 64))

/-- R71: the declared length is the 10-bit unsigned field at bit 14. -/
def Obligations.DeclaredLengthIsTenBitField : Prop :=
  ∀ m : Memory, (declaredLength (m.byte 1) (m.byte 2)).toNat = m.getu 14 10 ∧
    m.getu 14 10 = ((m.byte 1).toNat &&& 3) * 256 + (m.byte 2).toNat

/-- R102: GETU. Bit `j` of the response is the field's bit `len − 1 − j` in the order of R101, and 0 above the field. -/
def Obligations.GetuReadsUnsignedField : Prop :=
  EncodedAs 0x9#4 0x000000FF#32 (fun c => .getu (c.cmd.extractLsb' 8 14).toNat (c.cmd.extractLsb' 22 6).toNat) ∧
  ∀ (s : State) (pos len : Nat),
    (len < 1 ∨ 32 < len ∨ 8232 < pos + len → exec (.getu pos len) s = .next (answered s .range 0#64)) ∧
    (1 ≤ len → len ≤ 32 → pos + len ≤ 8232 → ∃ r, exec (.getu pos len) s = .next (answered s .ok r) ∧
      ∀ j, j < 64 → r.getLsbD j = (decide (j < len) && s.buf.bit (pos + (len - 1 - j))))

/-- R103: GETS. The response is the field with its sign bit, `BufBit(pos)`, copied into every bit above it. -/
def Obligations.GetsSignExtendsField : Prop :=
  EncodedAs 0xA#4 0x000000FF#32 (fun c => .gets (c.cmd.extractLsb' 8 14).toNat (c.cmd.extractLsb' 22 6).toNat) ∧
  ∀ (s : State) (pos len : Nat),
    (len < 1 ∨ 32 < len ∨ 8232 < pos + len → exec (.gets pos len) s = .next (answered s .range 0#64)) ∧
    (1 ≤ len → len ≤ 32 → pos + len ≤ 8232 → ∃ r, exec (.gets pos len) s = .next (answered s .ok r) ∧
      r.toInt = (s.buf.getu pos len : Int) - (if s.buf.bit pos then 2 ^ len else 0) ∧
      ∀ j, j < 64 → r.getLsbD j = s.buf.bit (pos + (len - 1 - min j (len - 1))))

/-- R104: GETS38. The response is `hi · 64 + lo`, which is the 38 bits read as one two's-complement field. -/
def Obligations.Gets38ReadsSigned38BitField : Prop :=
  EncodedAs 0xB#4 0x0FC000FF#32 (fun c => .gets38 (c.cmd.extractLsb' 8 14).toNat) ∧
  ∀ (s : State) (pos : Nat),
    (8232 < pos + 38 → exec (.gets38 pos) s = .next (answered s .range 0#64)) ∧
    (pos + 38 ≤ 8232 → ∃ r, exec (.gets38 pos) s = .next (answered s .ok r) ∧
      r.toInt = (BitVec.ofNat 32 (s.buf.getu pos 32)).toInt * 64 + (s.buf.getu (pos + 32) 6 : Int) ∧
      r.toInt = (BitVec.ofNat 38 (s.buf.getu pos 38)).toInt ∧
      ∀ j, j < 64 → r.getLsbD j = s.buf.bit (pos + (37 - min j 37)))

/-- R105: GETSM. The top bit is the sign, the other bits the magnitude; a negative zero and LEN = 1 give 0. -/
def Obligations.GetsmReadsSignMagnitudeField : Prop :=
  EncodedAs 0xC#4 0x000000FF#32 (fun c => .getsm (c.cmd.extractLsb' 8 14).toNat (c.cmd.extractLsb' 22 6).toNat) ∧
  ∀ (s : State) (pos len : Nat),
    (len < 1 ∨ 32 < len ∨ 8232 < pos + len → exec (.getsm pos len) s = .next (answered s .range 0#64)) ∧
    (1 ≤ len → len ≤ 32 → pos + len ≤ 8232 → ∃ r, exec (.getsm pos len) s = .next (answered s .ok r) ∧
      r.toInt = (if s.buf.bit pos then -1 else 1) *
        ((∑ k ∈ Finset.range (len - 1), (s.buf.bit (pos + 1 + k)).toNat <<< (len - 2 - k) : Nat) : Int) ∧
      -(2 ^ (len - 1) - 1 : Int) ≤ r.toInt ∧ r.toInt ≤ 2 ^ (len - 1) - 1 ∧ (len = 1 → r = 0#64))

/-- R106: SETU. The field is stored most significant bit first, every other bit and byte kept; RANGE before BUSY. -/
def Obligations.SetuStoresFieldOrRangeOrBusy : Prop :=
  EncodedAs 0xD#4 0x000000FF#32
    (fun c => .setu (c.cmd.extractLsb' 8 14).toNat (c.cmd.extractLsb' 22 6).toNat c.arg) ∧
  ∀ (s : State) (pos len : Nat) (arg : Word),
    (len < 1 ∨ 32 < len ∨ 8232 < pos + len ∨ 2 ^ len ≤ arg.toNat →
      exec (.setu pos len arg) s = .next (answered s .range 0#64)) ∧
    (1 ≤ len → len ≤ 32 → pos + len ≤ 8232 → arg.toNat < 2 ^ len →
      (s.frState ≠ .idle → exec (.setu pos len arg) s = .next (answered s .busy 0#64)) ∧
      (s.frState = .idle → ∃ m, FieldStored s.buf m pos len arg ∧
        exec (.setu pos len arg) s = .next { s with buf := m, frReady := false, response := some ⟨.ok, 0#64⟩ }))

/-- R107: SETS. As SETU, for a value in the signed range of the field. -/
def Obligations.SetsStoresFieldOrRangeOrBusy : Prop :=
  EncodedAs 0xE#4 0x000000FF#32
    (fun c => .sets (c.cmd.extractLsb' 8 14).toNat (c.cmd.extractLsb' 22 6).toNat c.arg) ∧
  ∀ (s : State) (pos len : Nat) (arg : Word),
    (len < 1 ∨ 32 < len ∨ 8232 < pos + len → exec (.sets pos len arg) s = .next (answered s .range 0#64)) ∧
    (1 ≤ len → len ≤ 32 → pos + len ≤ 8232 →
      (arg.toInt < -(2 ^ (len - 1)) ∨ 2 ^ (len - 1) ≤ arg.toInt →
        exec (.sets pos len arg) s = .next (answered s .range 0#64)) ∧
      (-(2 ^ (len - 1)) ≤ arg.toInt → arg.toInt < 2 ^ (len - 1) →
        (s.frState ≠ .idle → exec (.sets pos len arg) s = .next (answered s .busy 0#64)) ∧
        (s.frState = .idle → ∃ m, FieldStored s.buf m pos len arg ∧
          exec (.sets pos len arg) s = .next { s with buf := m, frReady := false, response := some ⟨.ok, 0#64⟩ })))

/-- R108: the round trips SETU then GETU, and SETS then GETS; both writes answer OK and change no bit outside the field. -/
def Obligations.WrittenFieldReadsBack : Prop :=
  ∀ (s : State) (pos len : Nat) (v : Word), s.frState = .idle → 1 ≤ len → len ≤ 32 → pos + len ≤ 8232 →
    (v.toNat < 2 ^ len → ∃ t, exec (.setu pos len v) s = .next t ∧ t.response = some ⟨.ok, 0#64⟩ ∧
      exec (.getu pos len) t = .next (answered t .ok (v.setWidth 64)) ∧
      ∀ i, i < pos ∨ pos + len ≤ i → t.buf.bit i = s.buf.bit i) ∧
    (-(2 ^ (len - 1)) ≤ v.toInt → v.toInt < 2 ^ (len - 1) →
      ∃ t, exec (.sets pos len v) s = .next t ∧ t.response = some ⟨.ok, 0#64⟩ ∧
        exec (.gets pos len) t = .next (answered t .ok (v.signExtend 64)) ∧
        ∀ i, i < pos ∨ pos + len ≤ i → t.buf.bit i = s.buf.bit i)

/-- R234: reads that keep the host's guard see the header and payload alone: two states with the same `fr_len` and the same first
L + 3 bytes give the same answers, whatever trailer or stale bytes follow. -/
def Obligations.GuardedReadsSeeOnlyTheFrame : Prop :=
  ∀ (s u : State) (pos len : Nat), s.frLen = u.frLen →
    (∀ a, a < s.frLen.toNat + 3 → s.buf.byte a = u.buf.byte a) →
    (1 ≤ len → len ≤ 32 → InsideFrame s pos len → ∃ r1 r2 r3,
      exec (.getu pos len) s = .next (answered s .ok r1) ∧ exec (.getu pos len) u = .next (answered u .ok r1) ∧
      exec (.gets pos len) s = .next (answered s .ok r2) ∧ exec (.gets pos len) u = .next (answered u .ok r2) ∧
      exec (.getsm pos len) s = .next (answered s .ok r3) ∧ exec (.getsm pos len) u = .next (answered u .ok r3)) ∧
    (InsideFrame s pos 38 → ∃ r,
      exec (.gets38 pos) s = .next (answered s .ok r) ∧ exec (.gets38 pos) u = .next (answered u .ok r))

/-! ## The CRC-24Q generator -/

/-- R132: the byte update by table is eight bit-serial steps, most significant data bit first. -/
def Obligations.CrcStepIsEightBitSerialSteps : Prop :=
  ∀ (c : Crc) (d : Byte),
    crcStep c d = ((c <<< 8) &&& 0xFFFFFF#24) ^^^ crcTable (((c >>> 16).setWidth 8 ^^^ d) &&& 0xFF#8) ∧
    crcStep c d = crcSerial c d

/-- R134: the CRC of a message with its CRC appended is 0, and a trailer in the buffer is right exactly if the CRC over it too is
0. -/
def Obligations.ResidueOfValidFrameIsZero : Prop :=
  (∀ bytes : List Byte,
    crcOfBytes (bytes ++ [(crcOfBytes bytes).extractLsb' 16 8, (crcOfBytes bytes).extractLsb' 8 8,
      (crcOfBytes bytes).extractLsb' 0 8]) = 0#24) ∧
  ∀ (m : Memory) (n : Nat), m.crc24q (n + 3) = 0#24 ↔ m.crc24q n = m.byte n ++ m.byte (n + 1) ++ m.byte (n + 2)

/-- R135: CRC_INIT. -/
def Obligations.CrcInitClearsAccumulator : Prop :=
  EncodedAs 0x6#4 0x0FFFFFFF#32 (fun _ => .crcInit) ∧
  ∀ s, exec .crcInit s = .next { s with crcAcc := 0#24, response := some ⟨.ok, 0#64⟩ }

/-- R136, with `crc_step` in the bit-serial form of R132: CRC_BYTE shifts the byte into the accumulator and answers the new value. -/
def Obligations.CrcByteUpdatesAccumulator : Prop :=
  EncodedAs 0x7#4 0x0FFFFF00#32 (fun c => .crcByte (c.cmd.extractLsb' 0 8)) ∧
  ∀ (s : State) (d : Byte), ∃ c : Crc,
    exec (.crcByte d) s = .next { s with crcAcc := c, response := some ⟨.ok, c.setWidth 64⟩ } ∧
    c = crcSerial s.crcAcc d

/-- R137, R133: CRC_BUF answers the CRC of the first N bytes from the initial value, whatever the accumulator held; on a held
frame it gives the trailer over the first L + 3 bytes and 0 over all L + 6. -/
def Obligations.CrcBufIsCrcOfPrefix : Prop :=
  EncodedAs 0x8#4 0x0FC000FF#32 (fun c => .crcBuf (c.cmd.extractLsb' 8 14).toNat) ∧
  ∀ (s : State) (n : Nat),
    (1029 < n → exec (.crcBuf n) s = .next (answered s .range 0#64)) ∧
    (n ≤ 1029 → ∃ c : Crc, c = ((List.range n).map s.buf.byte).foldl crcStep 0#24 ∧
      exec (.crcBuf n) s = .next { s with crcAcc := c, response := some ⟨.ok, c.setWidth 64⟩ }) ∧
    (HoldsValidFrame s →
      exec (.crcBuf (s.frLen.toNat + 3)) s = .next
        { s with crcAcc := s.buf.read3 (s.frLen.toNat + 3),
                 response := some ⟨.ok, (s.buf.read3 (s.frLen.toNat + 3)).setWidth 64⟩ } ∧
      exec (.crcBuf (s.frLen.toNat + 6)) s = .next { s with crcAcc := 0#24, response := some ⟨.ok, 0#64⟩ })

/-- D18, R136, R137: the byte path and the buffer path of the generator agree: CRC_INIT and then CRC_BYTE of the first N buffer
bytes leave the accumulator that CRC_BUF N leaves. -/
def Obligations.BytePathAgreesWithBufferPath : Prop :=
  ∀ (s : State) (n : Nat), n ≤ 1029 →
    ∃ t u, perform (.crcInit :: crcBytes ((List.range n).map s.buf.byte)) s = .next t ∧
      exec (.crcBuf n) s = .next u ∧ t.crcAcc = u.crcAcc ∧ t.buf = s.buf ∧ t.frState = s.frState

/-! ## The framer -/

/-- R152: in IDLE a byte other than the preamble changes nothing, the preamble is stored and starts a frame. -/
def Obligations.PushInIdle : Prop :=
  ∀ (s : State) (d : Byte), s.frState = .idle →
    (d ≠ 0xD3#8 → exec (.push d) s = .next (answered s .ok 0#64)) ∧
    (d = 0xD3#8 → ∃ m, OneByteStored s.buf m 0 d ∧ exec (.push d) s = .next
      { s with buf := m, frFill := 1#11, frLen := 0#10, frReady := false, frResv := false, frState := .len1,
               response := some ⟨.ok, 0#64⟩ })

/-- R153: in LEN1 every byte is stored as header byte 1. -/
def Obligations.PushInLen1 : Prop :=
  ∀ (s : State) (d : Byte), s.frState = .len1 → ∃ m, OneByteStored s.buf m 1 d ∧ exec (.push d) s = .next
    { s with buf := m, frFill := 2#11, frState := .len2, response := some ⟨.ok, 0#64⟩ }

/-- R154, R27, R71: in LEN2 the length and the reserved-bits flag are taken from the header, and a frame of length 0 goes straight
to its trailer. -/
def Obligations.PushInLen2 : Prop :=
  ∀ (s : State) (d : Byte), s.frState = .len2 → ∃ (m : Memory) (len : BitVec 10), OneByteStored s.buf m 2 d ∧
    len.toNat = ((s.buf.byte 1).toNat &&& 0x03) <<< 8 ||| d.toNat ∧
    exec (.push d) s = .next
      { s with buf := m, frFill := 3#11, frLen := len, frResv := decide ((s.buf.byte 1).toNat &&& 0xFC ≠ 0),
               frState := if len = 0#10 then .crc else .payload, response := some ⟨.ok, 0#64⟩ }

/-- R155: in PAYLOAD the byte is stored at `fr_fill`; after the byte at index L + 2 the trailer is expected. The premise on
`fr_fill` is part of R24. -/
def Obligations.PushInPayload : Prop :=
  ∀ (s : State) (d : Byte), s.frState = .payload → s.frFill.toNat ≤ 1028 →
    ∃ (m : Memory) (fill : BitVec 11), OneByteStored s.buf m s.frFill.toNat d ∧ fill.toNat = s.frFill.toNat + 1 ∧
      exec (.push d) s = .next
        { s with buf := m, frFill := fill,
                 frState := if s.frFill.toNat = s.frLen.toNat + 2 then .crc else .payload,
                 response := some ⟨.ok, 0#64⟩ }

/-- R156, R157, R158, R203: in CRC the byte is stored at `fr_fill`; the third trailer byte ends the frame, with FRAME and
`fr_ready` 1 if the CRC over the first L + 3 bytes equals the trailer, else with CRC_ERR and `fr_ready` 0. The premise on `fr_fill`
is part of R24. -/
def Obligations.PushInCrc : Prop :=
  ∀ (s : State) (d : Byte), s.frState = .crc → s.frFill.toNat ≤ 1028 →
    ∃ m, OneByteStored s.buf m s.frFill.toNat d ∧
      (s.frFill.toNat + 1 < s.frLen.toNat + 6 → ∃ fill : BitVec 11, fill.toNat = s.frFill.toNat + 1 ∧
        exec (.push d) s = .next { s with buf := m, frFill := fill, response := some ⟨.ok, 0#64⟩ }) ∧
      (s.frLen.toNat + 6 ≤ s.frFill.toNat + 1 → ∃ info,
        InfoSays info (s.frLen.toNat + 3) s.frResv (m.crc24q (s.frLen.toNat + 3)) (m.read3 (s.frLen.toNat + 3)) ∧
        (m.crc24q (s.frLen.toNat + 3) = m.read3 (s.frLen.toNat + 3) → exec (.push d) s = .next
          { s with buf := m, frState := .idle, frFill := 0#11, frReady := true, response := some ⟨.frame, info⟩ }) ∧
        (m.crc24q (s.frLen.toNat + 3) ≠ m.read3 (s.frLen.toNat + 3) → exec (.push d) s = .next
          { s with buf := m, frState := .idle, frFill := 0#11, frReady := false, response := some ⟨.crcErr, info⟩ }))

/-- Log 7, from R40, R49 and R24: the model stops on one thing alone, a PUSH in PAYLOAD or CRC with `fr_fill` outside the buffer.
The stop is the model's own choice. -/
def Obligations.OnlyStoreOutsideBufferFaults : Prop :=
  ∀ (i : Instr) (s : State) (r : Fault), exec i s = .fault r ↔
    (∃ d, i = .push d) ∧ (s.frState = .payload ∨ s.frState = .crc) ∧ 1028 < s.frFill.toNat ∧
      r = .storeOutsideBuffer s.frFill.toNat

/-- R152, R233: in IDLE any number of bytes other than the preamble leaves everything as it was, a held frame too. -/
def Obligations.NoiseIsSkipped : Prop :=
  ∀ (s : State) (bytes : List Byte), s.frState = .idle → (∀ b ∈ bytes, b ≠ 0xD3#8) →
    ∃ t, feed bytes s = .next t ∧ SameButResponse s t ∧ (bytes ≠ [] → t.response = some ⟨.ok, 0#64⟩)

/-- R159, R164, R160 to R162: from IDLE, a preamble, two header bytes, the L payload bytes they declare and three trailer bytes
are taken whatever their values: no proper part of them ends the frame, the last one does, with FRAME exactly if the CRC-24Q of
the first L + 3 bytes is the big-endian trailer, equivalently if the CRC of all L + 6 is 0; the bytes pushed, and no others, stand in the buffer. -/
def Obligations.FrameEmittedExactlyIfCrcMatches : Prop :=
  ∀ (s : State) (h1 h2 : Byte) (payload : List Byte) (t0 t1 t2 : Byte),
    s.frState = .idle → payload.length = (h1.toNat % 4) * 256 + h2.toNat →
    let body := 0xD3#8 :: h1 :: h2 :: payload
    let bytes := body ++ [t0, t1, t2]
    let received : Crc := t0 ++ t1 ++ t2
    (∀ p q, p ++ q = bytes → p ≠ [] → q ≠ [] → ∃ u, feed p s = .next u ∧ u.frState ≠ .idle ∧
      u.frFill.toNat = p.length ∧ u.response = some ⟨.ok, 0#64⟩) ∧
    ∃ (t : State) (info : Data), feed bytes s = .next t ∧ t.frState = .idle ∧ t.frFill = 0#11 ∧
      t.frLen.toNat = payload.length ∧ t.frResv = decide (4 ≤ h1.toNat) ∧ t.crcAcc = s.crcAcc ∧
      t.response = some ⟨if crcOfBytes body = received then .frame else .crcErr, info⟩ ∧
      InfoSays info (payload.length + 3) (decide (4 ≤ h1.toNat)) (crcOfBytes body) received ∧
      t.frReady = decide (crcOfBytes body = received) ∧
      (crcOfBytes body = received ↔ t.buf.crc24q (payload.length + 6) = 0#24) ∧
      ∀ a, t.buf.byte a = if h : a < bytes.length then bytes[a] else s.buf.byte a

/-- R70, R161, R73: every frame a sender builds, with any reserved bits and any payload of at most 1023 bytes, is emitted from
IDLE, its length and its flag reported, and GETU 24, 12 then reads the first 12 bits of a payload of two bytes or more. -/
def Obligations.WireFrameIsEmitted : Prop :=
  ∀ (s : State) (resv : BitVec 6) (payload : List Byte), s.frState = .idle → payload.length ≤ 1023 →
    ∃ (t : State) (info : Data), feed (wireFrame resv payload) s = .next t ∧ t.frState = .idle ∧ t.frReady = true ∧
      t.response = some ⟨.frame, info⟩ ∧
      InfoSays info (payload.length + 3) (decide (resv ≠ 0#6)) (crcOfBytes (frameBody resv payload))
        (crcOfBytes (frameBody resv payload)) ∧
      ∀ (b0 b1 : Byte) (more : List Byte), payload = b0 :: b1 :: more →
        exec (.getu 24 12) t = .next (answered t .ok (BitVec.ofNat 64 (b0.toNat * 16 + b1.toNat / 16)))

/-- R28: only the generator's commands and the resets write `crc_acc`, and PUSH does the same whatever it holds. -/
def Obligations.GeneratorAndFramerAreIndependent : Prop :=
  (∀ (i : Instr) (s t : State), exec i s = .next t → i ≠ .crcInit → (∀ d, i ≠ .crcByte d) → (∀ n, i ≠ .crcBuf n) →
    i ≠ .reset → t.crcAcc = s.crcAcc) ∧
  ∀ (s t : State) (d : Byte) (c : Crc), exec (.push d) s = .next t →
    exec (.push d) { s with crcAcc := c } = .next { t with crcAcc := c }

/-- R150, R180, R233, R235: while a frame is in flight, every command but PUSH and RESET answers, and changes at most the
generator's register and the response: not one register or byte of the frame. -/
def Obligations.FrameInFlightIsUndisturbed : Prop :=
  ∀ (s : State) (i : Instr), s.frState ≠ .idle → (∀ d, i ≠ .push d) → i ≠ .reset →
    ∃ t, exec i s = .next t ∧ t = { s with crcAcc := t.crcAcc, response := t.response }

/-- R26: after a command `fr_ready` is 1 exactly if the command was answered FRAME, or it was 1 and none of the clearing events
happened: a preamble accepted in IDLE, a CRC_ERR, a successful host write, RESET. -/
def Obligations.FrReadySetAndClearedByItsEvents : Prop :=
  ∀ (s t : State) (i : Instr) (st : Status) (d : Data), exec i s = .next t → t.response = some ⟨st, d⟩ →
    (t.frReady = true ↔ st = .frame ∨
      (s.frReady = true ∧ ¬ (i = .push 0xD3#8 ∧ s.frState = .idle) ∧ st ≠ .crcErr ∧ i ≠ .reset ∧
        ¬ (st = .ok ∧ ((∃ k b, i = .bufWr k b) ∨ (∃ p l v, i = .setu p l v) ∨ ∃ p l v, i = .sets p l v))))

/-! ## Statuses -/

/-- R68, R201: every command that answers gives a response, FRAME and CRC_ERR come from PUSH alone, RANGE only from the commands
with operand ranges, BUSY only from a host write while a frame is in flight, ILLEGAL from no command that decodes. -/
def Obligations.StatusesComeFromTheirCommands : Prop :=
  ∀ (s t : State) (i : Instr), exec i s = .next t → ∃ st d, t.response = some ⟨st, d⟩ ∧ st ≠ .illegal ∧
    (st = .frame ∨ st = .crcErr → ∃ b, i = .push b) ∧
    (st = .range → (∃ k, i = .bufRd k) ∨ (∃ k b, i = .bufWr k b) ∨ (∃ n, i = .crcBuf n) ∨ (∃ p l, i = .getu p l) ∨
      (∃ p l, i = .gets p l) ∨ (∃ p, i = .gets38 p) ∨ (∃ p l, i = .getsm p l) ∨ (∃ p l v, i = .setu p l v) ∨
      ∃ p l v, i = .sets p l v) ∧
    (st = .busy → s.frState ≠ .idle ∧
      ((∃ k b, i = .bufWr k b) ∨ (∃ p l v, i = .setu p l v) ∨ ∃ p l v, i = .sets p l v))

/-- R202: a command answered ILLEGAL, RANGE or BUSY has no effect, and its response data is 0. -/
def Obligations.FailedCommandHasNoEffect : Prop :=
  ∀ (s t : State) (c : Command) (rest : List HostInput) (st : Status) (d : Data),
    step { s with pending := .command c :: rest } = .next t → t.response = some ⟨st, d⟩ →
    st = .illegal ∨ st = .range ∨ st = .busy →
    d = 0#64 ∧ t = { s with pending := rest, response := some ⟨st, 0#64⟩ }

/-- R204, R75: the three conditions of a host write in their order, on the command words of BUF_WR, SETU and SETS. -/
def Obligations.IllegalBeforeRangeBeforeBusy : Prop :=
  ∀ (s : State) (c : Command), s.frState ≠ .idle →
    let pos := (c.cmd.extractLsb' 8 14).toNat
    let len := (c.cmd.extractLsb' 22 6).toNat
    let report (illegal range : Prop) : Prop :=
      (illegal → Answers s c (answered s .illegal 0#64)) ∧
      (¬ illegal → range → Answers s c (answered s .range 0#64)) ∧
      (¬ illegal → ¬ range → Answers s c (answered s .busy 0#64))
    (c.cmd.extractLsb' 28 4 = 0x5#4 → report (len ≠ 0) (1028 < pos)) ∧
    (c.cmd.extractLsb' 28 4 = 0xD#4 → report (c.cmd.extractLsb' 0 8 ≠ 0#8)
      (len = 0 ∨ 32 < len ∨ 8232 < pos + len ∨ 2 ^ len ≤ c.arg.toNat)) ∧
    (c.cmd.extractLsb' 28 4 = 0xE#4 → report (c.cmd.extractLsb' 0 8 ≠ 0#8)
      (len = 0 ∨ 32 < len ∨ 8232 < pos + len ∨ c.arg.toInt < -(2 ^ (len - 1)) ∨ 2 ^ (len - 1) ≤ c.arg.toInt))

/-- R32: which command writes which state; what is not listed is unchanged. The premise on `fr_fill` is R24: PUSH stores at
`fr_fill`. -/
def Obligations.CommandWritesOnlyItsRow : Prop :=
  ∀ (s t : State) (i : Instr), FillInv s → exec i s = .next t →
    match i with
    | .nop | .status | .bufRd _ | .getu _ _ | .gets _ _ | .gets38 _ | .getsm _ _ =>
      t = { s with response := t.response }
    | .reset => t.buf = s.buf ∧ t.pending = s.pending
    | .push _ => t.crcAcc = s.crcAcc ∧ t.pending = s.pending ∧
        ∀ a, a ≠ s.frFill.toNat → t.buf.byte a = s.buf.byte a
    | .bufWr idx _ => t = { s with buf := t.buf, frReady := t.frReady, response := t.response } ∧
        ∀ a, a ≠ idx → t.buf.byte a = s.buf.byte a
    | .setu pos len _ | .sets pos len _ =>
      t = { s with buf := t.buf, frReady := t.frReady, response := t.response } ∧
        ∀ b, b < pos ∨ pos + len ≤ b → t.buf.bit b = s.buf.bit b
    | .crcInit | .crcByte _ | .crcBuf _ => t = { s with crcAcc := t.crcAcc, response := t.response }

/-- R48: two equal host writes in a row leave the state of a single one. The premise, the canonical form of the buffer, is the model's
own (log 5). -/
def Obligations.HostWritesAreIdempotent : Prop :=
  ∀ (s : State) (i : Instr), s.buf.wf →
    ((∃ k d, i = .bufWr k d) ∨ (∃ p l v, i = .setu p l v) ∨ ∃ p l v, i = .sets p l v) →
    ∃ t, exec i s = .next t ∧ exec i t = .next t

/-! ## Invariants -/

/-- R24, R34: the state after power-on meets the invariant. The invariant's clause on the canonical form of the buffer is the model's
own choice (log 5), no rule of the spec. -/
def Obligations.ResetMeetsInvariant : Prop := Inv State.reset

/-- R24, R25, R26, R27, R29: every step keeps the invariant: the fill index in the range of its state, the header of the frame in
flight beside the length and the flag, a CRC-valid frame in the buffer while `fr_ready` is 1; and the buffer in its canonical form, a clause that is the model's own choice
(log 5). -/
def Obligations.StepKeepsInvariant : Prop := ∀ s t : State, Inv s → step s = .next t → Inv t

/-- R200, R208, R162: in every state that meets the invariant the block takes its next input: no step stops, and a step with a
command gives a response. The invariant's clause on the buffer's form is the model's own (log 5). -/
def Obligations.BlockAlwaysGoesOn : Prop :=
  ∀ s : State, Inv s → ∃ t, step s = .next t ∧
    ∀ c rest, s.pending = .command c :: rest → t.pending = rest ∧ ∃ r, t.response = some r
end

