-- ==== Sys2Proof/Laws/Memory.lean ====
section
/-! SUPPORT. The laws of the buffer as a list of cells: read after write, the canonical form, and what it is good for. -/

namespace Sys2Proof.Machine

@[simp] theorem Memory.read_nil (i : Nat) : Memory.read [] i = none := rfl

@[simp] theorem Memory.byte_nil (i : Nat) : Memory.byte [] i = Config.bufInit i := rfl

/-- Read after write: the written index gives the written byte, every other index reads as before. -/
theorem Memory.read_write (m : Memory) (i j : Nat) (b : Byte) :
    (m.write i b).read j = if j = i then some b else m.read j := by
  induction m with
  | nil => simp [Memory.write, Memory.read]
  | cons c rest ih =>
    obtain ⟨k, v⟩ := c
    simp only [Memory.write]
    split
    · simp [Memory.read]
    · split
      · simp only [Memory.read]; split <;> simp_all
      · simp only [Memory.read, ih]
        split
        · rw [if_neg (by omega)]
        · rfl

theorem Memory.byte_write (m : Memory) (i j : Nat) (b : Byte) :
    (m.write i b).byte j = if j = i then b else m.byte j := by
  simp only [Memory.byte, Memory.read_write]
  split <;> rfl

@[simp] theorem Memory.byte_write_self (m : Memory) (i : Nat) (b : Byte) : (m.write i b).byte i = b := by
  simp [Memory.byte_write]

theorem Memory.byte_write_ne (m : Memory) {i j : Nat} (b : Byte) (h : j ≠ i) :
    (m.write i b).byte j = m.byte j := by
  simp [Memory.byte_write, h]

/-- A cell of the written buffer is the written one or stood there before. -/
theorem Memory.mem_write {m : Memory} {i : Nat} {b : Byte} {c : Host.Cell} (h : c ∈ m.write i b) :
    c = (i, b) ∨ c ∈ m := by
  induction m with
  | nil => simpa [Memory.write] using h
  | cons d rest ih =>
    obtain ⟨k, v⟩ := d
    simp only [Memory.write] at h
    split at h
    · simpa using h
    · split at h
      · rcases List.mem_cons.1 h with h | h <;> simp [h]
      · rcases List.mem_cons.1 h with h | h
        · simp [h]
        · rcases ih h with h | h <;> simp [h]

theorem Memory.write_sorted {m : Memory} (h : m.Pairwise (fun x y => x.1 < y.1)) (i : Nat) (b : Byte) :
    (m.write i b).Pairwise (fun x y => x.1 < y.1) := by
  induction m with
  | nil => simp [Memory.write]
  | cons d rest ih =>
    obtain ⟨k, v⟩ := d
    obtain ⟨hk, hr⟩ := List.pairwise_cons.1 h
    simp only [Memory.write]
    split
    · next hi =>
      refine List.pairwise_cons.2 ⟨fun c hc => ?_, h⟩
      rcases List.mem_cons.1 hc with rfl | hc
      · exact hi
      · exact Nat.lt_trans hi (hk c hc)
    · split
      · next _ hi => exact List.pairwise_cons.2 ⟨fun c hc => hi ▸ hk c hc, hr⟩
      · next h1 h2 =>
        refine List.pairwise_cons.2 ⟨fun c hc => ?_, ih hr⟩
        rcases Memory.mem_write hc with rfl | hc
        · show k < i; omega
        · exact hk c hc

/-- A write inside the buffer keeps the canonical form. -/
theorem Memory.write_wf {m : Memory} (h : m.wf) {i : Nat} (hi : i < Config.bufBytes) (b : Byte) :
    (m.write i b).wf := by
  refine ⟨Memory.write_sorted h.1 i b, fun c hc => ?_⟩
  rcases Memory.mem_write hc with rfl | hc
  · exact hi
  · exact h.2 c hc

theorem Memory.wf_nil : Memory.wf [] := by simp [Memory.wf]

theorem Memory.read_eq_none_of_lt {m : Memory} {i : Nat} (h : ∀ c ∈ m, i < c.1) : m.read i = none := by
  induction m with
  | nil => rfl
  | cons d rest ih =>
    obtain ⟨k, v⟩ := d
    have hk : i < k := h (k, v) (by simp)
    simp only [Memory.read]
    rw [if_neg (by omega)]
    exact ih fun c hc => h c (by simp [hc])

/-- Equal memories are equal data: two sorted buffers that read alike at every index are the same list. -/
theorem Memory.ext_of_read {m n : Memory} (hm : m.Pairwise (fun x y => x.1 < y.1))
    (hn : n.Pairwise (fun x y => x.1 < y.1)) (h : ∀ i, m.read i = n.read i) : m = n := by
  induction m generalizing n with
  | nil =>
    cases n with
    | nil => rfl
    | cons d r => obtain ⟨k, v⟩ := d; simpa [Memory.read] using h k
  | cons c r ih =>
    obtain ⟨k, v⟩ := c
    obtain ⟨hk, hr⟩ := List.pairwise_cons.1 hm
    cases n with
    | nil => simpa [Memory.read] using h k
    | cons d q =>
      obtain ⟨l, w⟩ := d
      obtain ⟨hl, hq⟩ := List.pairwise_cons.1 hn
      have hkl : k = l := by
        rcases Nat.lt_trichotomy k l with hlt | heq | hgt
        · have := h k
          simp only [Memory.read, if_true, if_neg (by omega : ¬ k = l)] at this
          rw [Memory.read_eq_none_of_lt fun c hc => Nat.lt_trans hlt (hl c hc)] at this
          cases this
        · exact heq
        · have := h l
          simp only [Memory.read, if_true, if_neg (by omega : ¬ l = k)] at this
          rw [Memory.read_eq_none_of_lt fun c hc => Nat.lt_trans hgt (hk c hc)] at this
          cases this
      subst hkl
      have hvw : v = w := by simpa [Memory.read] using h k
      subst hvw
      congr 1
      refine ih hr hq fun i => ?_
      rcases Nat.decEq i k with hik | rfl
      · simpa [Memory.read, hik] using h i
      · rw [Memory.read_eq_none_of_lt hk, Memory.read_eq_none_of_lt hl]

/-- Writing the byte an index was last given changes nothing. -/
theorem Memory.write_eq_self {m : Memory} (hm : m.Pairwise (fun x y => x.1 < y.1)) {i : Nat} {b : Byte}
    (h : m.read i = some b) : m.write i b = m := by
  refine Memory.ext_of_read (Memory.write_sorted hm i b) hm fun j => ?_
  rw [Memory.read_write]
  split
  · next hj => rw [hj, h]
  · rfl

end Sys2Proof.Machine
end

