-- ==== Sys2Proof/Laws/BitField.lean ====
section
/-! SUPPORT. The bit view of the buffer: what setting a bit and writing a field do to every bit and byte, and the bits of a
field read. -/

namespace Sys2Proof.Machine

theorem setByteBit_getLsbD (b : Byte) (j k : Nat) (v : Bool) (hj : j < 8) (hk : k < 8) :
    (setByteBit b j v).getLsbD k = if k = j then v else b.getLsbD k := by
  unfold setByteBit
  by_cases hkj : k = j
  · subst hkj
    cases v <;> simp [hk]
  · cases v <;> simp [hk, hkj] <;> omega

/-- Setting one bit of the bit view sets it and leaves every other bit (R41, R106). -/
theorem Memory.bit_setBit (m : Memory) (i j : Nat) (v : Bool) :
    (m.setBit i v).bit j = if j = i then v else m.bit j := by
  simp only [Memory.bit, Memory.setBit, Memory.byte_write]
  by_cases h : j / 8 = i / 8
  · rw [if_pos h, setByteBit_getLsbD _ _ _ _ (by omega) (by omega)]
    by_cases hij : j = i
    · subst hij; simp
    · rw [if_neg (by omega), if_neg hij, h]
  · rw [if_neg h, if_neg (by rintro rfl; exact h rfl)]

theorem Memory.byte_setBit_ne (m : Memory) {i a : Nat} (v : Bool) (h : a ≠ i / 8) :
    (m.setBit i v).byte a = m.byte a := Memory.byte_write_ne _ _ h

theorem Memory.setBit_wf {m : Memory} (h : m.wf) {i : Nat} (hi : i < Config.bufBits) (v : Bool) :
    (m.setBit i v).wf := Memory.write_wf h (by simp only [Config.bufBits, Config.bufBytes] at *; omega) _

/-- The first `k` turns of the writing loop, bit by bit (R106). -/
theorem Memory.bit_writeBits (m : Memory) (pos len : Nat) (v : Word) (k j : Nat) :
    (m.writeBits pos len v k).bit j =
      if pos ≤ j ∧ j < pos + k then v.getLsbD (len - 1 - (j - pos)) else m.bit j := by
  induction k with
  | zero => simp only [Memory.writeBits]; rw [if_neg (by omega)]
  | succ k ih =>
    simp only [Memory.writeBits, Memory.bit_setBit, ih]
    by_cases h : j = pos + k
    · subst h
      rw [if_pos rfl, if_pos (by omega), Nat.add_sub_cancel_left]
    · rw [if_neg h]
      by_cases h2 : pos ≤ j ∧ j < pos + k
      · rw [if_pos h2, if_pos (by omega)]
      · rw [if_neg h2, if_neg (by omega)]

theorem Memory.byte_writeBits_ne (m : Memory) (pos len : Nat) (v : Word) (k a : Nat)
    (h : a < pos / 8 ∨ pos + k ≤ 8 * a) : (m.writeBits pos len v k).byte a = m.byte a := by
  induction k with
  | zero => rfl
  | succ k ih =>
    simp only [Memory.writeBits]
    rw [Memory.byte_setBit_ne _ _ (by omega), ih (by omega)]

theorem Memory.writeBits_wf {m : Memory} (h : m.wf) (pos len : Nat) (v : Word) (k : Nat)
    (hk : pos + k ≤ Config.bufBits) : (m.writeBits pos len v k).wf := by
  induction k with
  | zero => exact h
  | succ k ih => exact Memory.setBit_wf (ih (by omega)) (by omega) _

/-- A written field keeps the canonical form of the buffer. -/
theorem Memory.writeField_wf {m : Memory} (h : m.wf) {pos len : Nat} (hp : pos + len ≤ Config.bufBits)
    (v : Word) : (m.writeField pos len v).wf := Memory.writeBits_wf h pos len v len hp

theorem Memory.getu_lt (m : Memory) (pos n : Nat) : m.getu pos n < 2 ^ n := by
  induction n with
  | zero => simp [Memory.getu]
  | succ n ih =>
    have : (m.bit (pos + n)).toNat ≤ 1 := Bool.toNat_le _
    simp only [Memory.getu, Nat.pow_succ]
    omega

/-- The bits of a field read, least significant first (R101). -/
theorem Memory.testBit_getu (m : Memory) (pos n j : Nat) :
    (m.getu pos n).testBit j = (decide (j < n) && m.bit (pos + (n - 1 - j))) := by
  induction n generalizing j with
  | zero => simp [Memory.getu]
  | succ n ih =>
    cases j with
    | zero =>
      rw [Memory.getu, Nat.testBit_zero, show pos + (n + 1 - 1 - 0) = pos + n by omega]
      cases m.bit (pos + n) <;> simp [Nat.add_mod]
    | succ j =>
      have : (2 * m.getu pos n + (m.bit (pos + n)).toNat) / 2 = m.getu pos n := by
        have : (m.bit (pos + n)).toNat ≤ 1 := Bool.toNat_le _
        omega
      rw [Memory.getu, Nat.testBit_succ, this, ih]
      have e : n - 1 - j = n + 1 - 1 - (j + 1) := by omega
      rw [e]
      simp

theorem Memory.getu_append (m : Memory) (pos a b : Nat) :
    m.getu pos (a + b) = m.getu pos a * 2 ^ b + m.getu (pos + a) b := by
  induction b with
  | zero => simp [Memory.getu]
  | succ b ih =>
    rw [← Nat.add_assoc, Memory.getu, ih, Memory.getu, Nat.pow_succ, Nat.add_assoc pos a b]
    ring

/-- A field depends on its own bits alone. -/
theorem Memory.getu_congr {m n : Memory} {pos len : Nat} (h : ∀ i, pos ≤ i → i < pos + len → m.bit i = n.bit i) :
    m.getu pos len = n.getu pos len := by
  induction len with
  | zero => rfl
  | succ len ih =>
    rw [Memory.getu, Memory.getu, ih fun i h1 h2 => h i h1 (by omega), h (pos + len) (by omega) (by omega)]

end Sys2Proof.Machine
end

