-- ==== Sys2Proof/Laws/Crc.lean ====
section
/-! SUPPORT. The CRC of a buffer prefix: it depends on the prefix alone, and it is the CRC of the prefix as a byte sequence. -/

namespace Sys2Proof.Machine

@[simp] theorem Memory.crc24q_zero (m : Memory) : m.crc24q 0 = 0 := rfl

theorem Memory.crc24q_succ (m : Memory) (n : Nat) : m.crc24q (n + 1) = crcStep (m.crc24q n) (m.byte n) := rfl

theorem Memory.crc24q_congr {m m' : Memory} {n : Nat} (h : ∀ i, i < n → m.byte i = m'.byte i) :
    m.crc24q n = m'.crc24q n := by
  induction n with
  | zero => rfl
  | succ n ih => rw [Memory.crc24q_succ, Memory.crc24q_succ, ih fun i hi => h i (by omega), h n (by omega)]

/-- A write at or above the prefix does not change its CRC. -/
theorem Memory.crc24q_write_ge (m : Memory) {n i : Nat} (b : Byte) (h : n ≤ i) :
    (m.write i b).crc24q n = m.crc24q n :=
  Memory.crc24q_congr fun j hj => Memory.byte_write_ne _ _ (by omega)

theorem crcOfBytes_append_singleton (bs : List Byte) (b : Byte) :
    crcOfBytes (bs ++ [b]) = crcStep (crcOfBytes bs) b := by
  simp [crcOfBytes]

/-- The CRC of the buffer's first bytes is the CRC of those bytes as a sequence (R133). -/
theorem Memory.crc24q_eq_crcOfBytes (m : Memory) (bs : List Byte)
    (h : ∀ i (hi : i < bs.length), m.byte i = bs[i]) : m.crc24q bs.length = crcOfBytes bs := by
  induction bs using List.reverseRecOn with
  | nil => rfl
  | append_singleton bs b ih =>
    rw [List.length_append, List.length_singleton, Memory.crc24q_succ, crcOfBytes_append_singleton]
    rw [ih fun i hi => ?_, h bs.length (by simp)]
    · simp
    · rw [h i (by simp; omega), List.getElem_append_left hi]

end Sys2Proof.Machine
end

