-- ==== Sys2Proof/Laws/Decode.lean ====
section
/-! SUPPORT. The four fields of an assembled command word, read back (R61), and its must-be-zero bits. -/

namespace Sys2Proof

theorem opField_assemble (op : Opcode) (l f : Nat) (d : Byte) : opField (assemble op l f d) = op.code := by
  refine BitVec.eq_of_getLsbD_eq fun i hi => ?_
  simp only [opField, assemble, BitVec.getLsbD_extractLsb', BitVec.getLsbD_append, hi, decide_true, Bool.true_and,
    if_neg (show ¬ 28 + i < 8 by omega), if_neg (show ¬ 28 + i - 8 < 14 by omega),
    if_neg (show ¬ 28 + i - 8 - 14 < 6 by omega)]
  congr 1
  omega

theorem lenField_assemble (op : Opcode) (l f : Nat) (d : Byte) : lenField (assemble op l f d) = l % 2 ^ 6 := by
  have : (assemble op l f d).extractLsb' 22 6 = BitVec.ofNat 6 l := by
    refine BitVec.eq_of_getLsbD_eq fun i hi => ?_
    simp only [assemble, BitVec.getLsbD_extractLsb', BitVec.getLsbD_append, hi, decide_true, Bool.true_and,
      if_neg (show ¬ 22 + i < 8 by omega), if_neg (show ¬ 22 + i - 8 < 14 by omega),
      if_pos (show 22 + i - 8 - 14 < 6 by omega)]
    congr 1
    omega
  rw [lenField, this, BitVec.toNat_ofNat]

theorem f14Field_assemble (op : Opcode) (l f : Nat) (d : Byte) : f14Field (assemble op l f d) = f % 2 ^ 14 := by
  have : (assemble op l f d).extractLsb' 8 14 = BitVec.ofNat 14 f := by
    refine BitVec.eq_of_getLsbD_eq fun i hi => ?_
    simp only [assemble, BitVec.getLsbD_extractLsb', BitVec.getLsbD_append, hi, decide_true, Bool.true_and,
      if_neg (show ¬ 8 + i < 8 by omega), if_pos (show 8 + i - 8 < 14 by omega)]
    congr 1
    omega
  rw [f14Field, this, BitVec.toNat_ofNat]

theorem dataField_assemble (op : Opcode) (l f : Nat) (d : Byte) : dataField (assemble op l f d) = d := by
  refine BitVec.eq_of_getLsbD_eq fun i hi => ?_
  simp only [dataField, assemble, BitVec.getLsbD_extractLsb', BitVec.getLsbD_append, hi, decide_true, Bool.true_and,
    if_pos (show 0 + i < 8 by omega)]
  congr 1
  omega

/-- A mask written field by field reads the fields of an assembled word. -/
theorem assemble_and (op : Opcode) (l f : Nat) (d : Byte) (mo : BitVec 4) (ml : BitVec 6) (mf : BitVec 14) (md : Byte) :
    assemble op l f d &&& (mo ++ ml ++ mf ++ md)
      = (op.code &&& mo) ++ (BitVec.ofNat 6 l &&& ml) ++ (BitVec.ofNat 14 f &&& mf) ++ (d &&& md) := by
  unfold assemble
  refine BitVec.and_append.trans (congrArg (· ++ (d &&& md)) ?_)
  exact BitVec.and_append.trans (congrArg (· ++ (BitVec.ofNat 14 f &&& mf)) BitVec.and_append)

/-- A command word is its four fields (R61). -/
theorem cmd_eq_fields (w : Word) :
    w = w.extractLsb' 28 4 ++ w.extractLsb' 22 6 ++ w.extractLsb' 8 14 ++ w.extractLsb' 0 8 := by
  refine BitVec.eq_of_getLsbD_eq fun i hi => ?_
  simp only [BitVec.getLsbD_append, BitVec.getLsbD_extractLsb']
  by_cases h0 : i < 8
  · simp [h0]
  · by_cases h1 : i - 8 < 14
    · simp only [h0, h1, if_true, if_false, decide_true, Bool.true_and]
      congr 1
      omega
    · by_cases h2 : i - 8 - 14 < 6
      · simp only [h0, h1, h2, if_true, if_false, decide_true, Bool.true_and]
        congr 1
        omega
      · simp only [h0, h1, h2, if_false, decide_eq_true (show i - 8 - 14 - 6 < 4 by omega), Bool.true_and]
        congr 1
        omega

/-- A command word under a mask written field by field is its masked fields. -/
theorem cmd_and (w : Word) (mo : BitVec 4) (ml : BitVec 6) (mf : BitVec 14) (md : Byte) :
    w &&& (mo ++ ml ++ mf ++ md)
      = (w.extractLsb' 28 4 &&& mo) ++ (w.extractLsb' 22 6 &&& ml) ++ (w.extractLsb' 8 14 &&& mf)
        ++ (w.extractLsb' 0 8 &&& md) := by
  refine (congrArg (· &&& (mo ++ ml ++ mf ++ md)) (cmd_eq_fields w)).trans ?_
  refine BitVec.and_append.trans (congrArg (· ++ (w.extractLsb' 0 8 &&& md)) ?_)
  exact BitVec.and_append.trans (congrArg (· ++ (w.extractLsb' 8 14 &&& mf)) BitVec.and_append)

/-- The code of an opcode is the one the opcode map reads back (R63). -/
theorem Opcode.ofCode_code (op : Opcode) : Opcode.ofCode op.code = some op := by
  cases op <;> rfl

theorem Opcode.code_of_ofCode {v : BitVec 4} {op : Opcode} (h : Opcode.ofCode v = some op) : op.code = v := by
  revert op h
  revert v
  decide

/-- Only 0xF is reserved (R65). -/
theorem Opcode.ofCode_eq_none_iff (v : BitVec 4) : Opcode.ofCode v = none ↔ v = 0xF#4 := by
  revert v
  decide

/-- What the decoder answers, by opcode and must-be-zero bits (R75). -/
theorem decode_of_opcode {c : Command} {op : Opcode} (h : opField c.cmd = op.code) :
    decode c = if c.cmd &&& op.mbz = 0#32 then .instr (op.operands c) else .illegal (.mustBeZero op) := by
  unfold decode
  rw [h, Opcode.ofCode_code]

theorem decode_cases (c : Command) :
    (opField c.cmd = 0xF#4 ∧ decode c = .illegal .reservedOpcode) ∨
    ∃ op : Opcode, opField c.cmd = op.code ∧
      ((c.cmd &&& op.mbz = 0#32 ∧ decode c = .instr (op.operands c)) ∨
       (c.cmd &&& op.mbz ≠ 0#32 ∧ decode c = .illegal (.mustBeZero op))) := by
  cases h : Opcode.ofCode (opField c.cmd) with
  | none => exact .inl ⟨(Opcode.ofCode_eq_none_iff _).1 h, by simp [decode, h]⟩
  | some op =>
    refine .inr ⟨op, (Opcode.code_of_ofCode h).symm, ?_⟩
    by_cases hm : c.cmd &&& op.mbz = 0#32
    · exact .inl ⟨hm, by simp [decode, h, hm]⟩
    · exact .inr ⟨hm, by simp [decode, h, hm]⟩

end Sys2Proof
end

