-- ==== Sys2Proof/Laws/Framer.lean ====
section
/-! SUPPORT. Everything one PUSH can do, said once: the seven ways a byte is taken (R152 to R158), and when PUSH stops. -/

namespace Sys2Proof.Machine

theorem storeAtFill_next {d : Byte} {s t : State} {rest : State → State} (h : storeAtFill d s rest = .next t) :
    s.frFill.toNat < Config.bufBytes ∧
      t = rest { s with buf := s.buf.write s.frFill.toNat d, frFill := s.frFill + 1 } := by
  unfold storeAtFill at h
  split at h
  · next hlt => injection h with h; exact ⟨hlt, h.symm⟩
  · cases h

/-- The end of a frame changes the state register, the fill index, the ready flag and the response, nothing else (R156). -/
theorem completeFrame_eq (s : State) :
    completeFrame s =
      { s with
        frState := .idle
        frFill := 0
        frReady := decide (s.buf.crc24q (s.frLen.toNat + 3) = s.buf.read3 (s.frLen.toNat + 3))
        response := some
          ⟨if s.buf.crc24q (s.frLen.toNat + 3) = s.buf.read3 (s.frLen.toNat + 3) then .frame else .crcErr,
           completionInfo (s.buf.read3 (s.frLen.toNat + 3)) (s.buf.crc24q (s.frLen.toNat + 3)) s.frResv
             (s.frLen.toNat + 3)⟩ } := by
  unfold completeFrame
  by_cases h : s.buf.crc24q (s.frLen.toNat + 3) = s.buf.read3 (s.frLen.toNat + 3) <;>
    simp [h, State.respond]

/-- Adding one to a fill index inside the buffer does not wrap. -/
theorem fill_succ {f : BitVec 11} (h : f.toNat < Config.bufBytes) : (f + 1).toNat = f.toNat + 1 := by
  rw [BitVec.toNat_add]
  simp only [Config.bufBytes] at h
  show (f.toNat + 1) % 2048 = _
  omega

/-- A PUSH that answers takes its byte in one of seven ways. -/
theorem execPush_cases {d : Byte} {s t : State} (h : execPush d s = .next t) :
    (s.frState = .idle ∧ d ≠ Config.preamble ∧ t = s.respond .ok 0#64) ∨
    (s.frState = .idle ∧ d = Config.preamble ∧
      t = { s with buf := s.buf.write 0 d, frFill := 1, frLen := 0, frReady := false, frResv := false,
                   frState := .len1, response := some ⟨.ok, 0#64⟩ }) ∨
    (s.frState = .len1 ∧
      t = { s with buf := s.buf.write 1 d, frFill := 2, frState := .len2, response := some ⟨.ok, 0#64⟩ }) ∨
    (s.frState = .len2 ∧
      t = { s with buf := s.buf.write 2 d, frFill := 3, frLen := declaredLength (s.buf.byte 1) d,
                   frResv := reservedFlag (s.buf.byte 1),
                   frState := if declaredLength (s.buf.byte 1) d = 0 then .crc else .payload,
                   response := some ⟨.ok, 0#64⟩ }) ∨
    (s.frState = .payload ∧ s.frFill.toNat < Config.bufBytes ∧
      t = { s with buf := s.buf.write s.frFill.toNat d, frFill := s.frFill + 1,
                   frState := if s.frFill.toNat = s.frLen.toNat + 2 then .crc else .payload,
                   response := some ⟨.ok, 0#64⟩ }) ∨
    (s.frState = .crc ∧ s.frFill.toNat < Config.bufBytes ∧ s.frFill.toNat < s.frLen.toNat + 5 ∧
      t = { s with buf := s.buf.write s.frFill.toNat d, frFill := s.frFill + 1, response := some ⟨.ok, 0#64⟩ }) ∨
    (s.frState = .crc ∧ s.frFill.toNat < Config.bufBytes ∧ s.frLen.toNat + 5 ≤ s.frFill.toNat ∧
      t = completeFrame { s with buf := s.buf.write s.frFill.toNat d, frFill := s.frFill + 1 }) := by
  unfold execPush at h
  split at h
  · next hs =>
    injection h with h
    unfold pushIdle at h
    split at h
    · next hd => exact .inr (.inl ⟨hs, hd, h.symm⟩)
    · next hd => exact .inl ⟨hs, hd, h.symm⟩
  · next hs => injection h with h; exact .inr (.inr (.inl ⟨hs, h.symm⟩))
  · next hs =>
    injection h with h
    refine .inr (.inr (.inr (.inl ⟨hs, ?_⟩)))
    rw [← h]
    simp [pushLen2, State.respond, Memory.byte_write]
  · next hs =>
    obtain ⟨hlt, ht⟩ := storeAtFill_next h
    refine .inr (.inr (.inr (.inr (.inl ⟨hs, hlt, ?_⟩))))
    rw [ht]
    simp only [pushPayload, State.respond, fill_succ hlt, hs, Nat.add_right_cancel_iff]
  · next hs =>
    obtain ⟨hlt, ht⟩ := storeAtFill_next h
    refine .inr (.inr (.inr (.inr (.inr ?_))))
    simp only [pushCrc, fill_succ hlt] at ht
    split at ht
    · next hf => exact .inl ⟨hs, hlt, by omega, ht⟩
    · next hf => exact .inr ⟨hs, hlt, by omega, ht⟩

end Sys2Proof.Machine
end

