-- ==== Sys2Proof/Laws/PerInstr.lean ====
section
/-! SUPPORT. The family EncodedInItsRow, one lemma per constructor of Instr: an instruction's words carry its row's opcode, have
the row's must-be-zero bits clear, and leave the argument word 0 where the row does not read it (R63, R64, R66). -/

namespace Sys2Proof.Laws.EncodedInItsRow

/-- The words of `i` fit the row of R63 that `i` belongs to. -/
def Statement (i : Instr) : Prop :=
  opField (encode i).cmd = i.opcode.code ∧ (encode i).cmd &&& i.opcode.mbz = 0#32 ∧
    (i.opcode.readsArg = false → (encode i).arg = 0#32)

/-- The three parts of the statement from the words' fields and the row's mask written field by field. -/
theorem of_fields {i : Instr} {op : Opcode} {l f : Nat} {d : Byte} {a : Word} {ml : BitVec 6} {mf : BitVec 14} {md : Byte}
    (he : encode i = ⟨assemble op l f d, a⟩) (ho : i.opcode = op) (hm : op.mbz = 0#4 ++ ml ++ mf ++ md)
    (hl : BitVec.ofNat 6 l &&& ml = 0) (hf : BitVec.ofNat 14 f &&& mf = 0) (hd : d &&& md = 0)
    (ha : op.readsArg = false → a = 0#32) : Statement i := by
  subst ho
  refine ⟨by rw [he]; exact opField_assemble _ _ _ _, ?_, by rw [he]; exact ha⟩
  rw [he, hm]
  show assemble _ _ _ _ &&& _ = _
  rw [assemble_and, hl, hf, hd, BitVec.and_zero]
  decide

theorem nop : Statement (.nop) :=
  of_fields (ml := 0x3F#6) (mf := 0x3FFF#14) (md := 0xFF#8) rfl rfl (by decide) (by simp) (by simp) (by simp) (by simp [Opcode.readsArg])

theorem reset : Statement (.reset) :=
  of_fields (ml := 0x3F#6) (mf := 0x3FFF#14) (md := 0xFF#8) rfl rfl (by decide) (by simp) (by simp) (by simp) (by simp [Opcode.readsArg])

theorem push (d : Byte) : Statement (.push d) :=
  of_fields (ml := 0x3F#6) (mf := 0x3FFF#14) (md := 0x0#8) rfl rfl (by decide) (by simp) (by simp) (by simp) (by simp [Opcode.readsArg])

theorem status : Statement (.status) :=
  of_fields (ml := 0x3F#6) (mf := 0x3FFF#14) (md := 0xFF#8) rfl rfl (by decide) (by simp) (by simp) (by simp) (by simp [Opcode.readsArg])

theorem bufRd (idx : Nat) : Statement (.bufRd idx) :=
  of_fields (ml := 0x3F#6) (mf := 0x0#14) (md := 0xFF#8) rfl rfl (by decide) (by simp) (by simp) (by simp) (by simp [Opcode.readsArg])

theorem bufWr (idx : Nat) (d : Byte) : Statement (.bufWr idx d) :=
  of_fields (ml := 0x3F#6) (mf := 0x0#14) (md := 0x0#8) rfl rfl (by decide) (by simp) (by simp) (by simp) (by simp [Opcode.readsArg])

theorem crcInit : Statement (.crcInit) :=
  of_fields (ml := 0x3F#6) (mf := 0x3FFF#14) (md := 0xFF#8) rfl rfl (by decide) (by simp) (by simp) (by simp) (by simp [Opcode.readsArg])

theorem crcByte (d : Byte) : Statement (.crcByte d) :=
  of_fields (ml := 0x3F#6) (mf := 0x3FFF#14) (md := 0x0#8) rfl rfl (by decide) (by simp) (by simp) (by simp) (by simp [Opcode.readsArg])

theorem crcBuf (n : Nat) : Statement (.crcBuf n) :=
  of_fields (ml := 0x3F#6) (mf := 0x0#14) (md := 0xFF#8) rfl rfl (by decide) (by simp) (by simp) (by simp) (by simp [Opcode.readsArg])

theorem getu (pos : Nat) (len : Nat) : Statement (.getu pos len) :=
  of_fields (ml := 0x0#6) (mf := 0x0#14) (md := 0xFF#8) rfl rfl (by decide) (by simp) (by simp) (by simp) (by simp [Opcode.readsArg])

theorem gets (pos : Nat) (len : Nat) : Statement (.gets pos len) :=
  of_fields (ml := 0x0#6) (mf := 0x0#14) (md := 0xFF#8) rfl rfl (by decide) (by simp) (by simp) (by simp) (by simp [Opcode.readsArg])

theorem gets38 (pos : Nat) : Statement (.gets38 pos) :=
  of_fields (ml := 0x3F#6) (mf := 0x0#14) (md := 0xFF#8) rfl rfl (by decide) (by simp) (by simp) (by simp) (by simp [Opcode.readsArg])

theorem getsm (pos : Nat) (len : Nat) : Statement (.getsm pos len) :=
  of_fields (ml := 0x0#6) (mf := 0x0#14) (md := 0xFF#8) rfl rfl (by decide) (by simp) (by simp) (by simp) (by simp [Opcode.readsArg])

theorem setu (pos : Nat) (len : Nat) (arg : Word) : Statement (.setu pos len arg) :=
  of_fields (ml := 0x0#6) (mf := 0x0#14) (md := 0xFF#8) rfl rfl (by decide) (by simp) (by simp) (by simp) (by simp [Opcode.readsArg])

theorem sets (pos : Nat) (len : Nat) (arg : Word) : Statement (.sets pos len arg) :=
  of_fields (ml := 0x0#6) (mf := 0x0#14) (md := 0xFF#8) rfl rfl (by decide) (by simp) (by simp) (by simp) (by simp [Opcode.readsArg])

end Sys2Proof.Laws.EncodedInItsRow
end

