-- ==== Sys2Proof/Laws/State.lean ====
section
/-! SUPPORT. What each shared update does to each field of State, true by unfolding. -/

namespace Sys2Proof.Machine

@[simp] theorem State.respond_frState (s : State) (st : Status) (d : Data) : (s.respond st d).frState = s.frState := rfl
@[simp] theorem State.respond_frFill (s : State) (st : Status) (d : Data) : (s.respond st d).frFill = s.frFill := rfl
@[simp] theorem State.respond_frLen (s : State) (st : Status) (d : Data) : (s.respond st d).frLen = s.frLen := rfl
@[simp] theorem State.respond_frReady (s : State) (st : Status) (d : Data) : (s.respond st d).frReady = s.frReady := rfl
@[simp] theorem State.respond_frResv (s : State) (st : Status) (d : Data) : (s.respond st d).frResv = s.frResv := rfl
@[simp] theorem State.respond_crcAcc (s : State) (st : Status) (d : Data) : (s.respond st d).crcAcc = s.crcAcc := rfl
@[simp] theorem State.respond_buf (s : State) (st : Status) (d : Data) : (s.respond st d).buf = s.buf := rfl
@[simp] theorem State.respond_pending (s : State) (st : Status) (d : Data) : (s.respond st d).pending = s.pending := rfl
@[simp] theorem State.respond_response (s : State) (st : Status) (d : Data) : (s.respond st d).response = some ⟨st, d⟩ := rfl

@[simp] theorem State.fail_frState (s : State) (st : Status) : (s.fail st).frState = s.frState := rfl
@[simp] theorem State.fail_frFill (s : State) (st : Status) : (s.fail st).frFill = s.frFill := rfl
@[simp] theorem State.fail_frLen (s : State) (st : Status) : (s.fail st).frLen = s.frLen := rfl
@[simp] theorem State.fail_frReady (s : State) (st : Status) : (s.fail st).frReady = s.frReady := rfl
@[simp] theorem State.fail_frResv (s : State) (st : Status) : (s.fail st).frResv = s.frResv := rfl
@[simp] theorem State.fail_crcAcc (s : State) (st : Status) : (s.fail st).crcAcc = s.crcAcc := rfl
@[simp] theorem State.fail_buf (s : State) (st : Status) : (s.fail st).buf = s.buf := rfl
@[simp] theorem State.fail_pending (s : State) (st : Status) : (s.fail st).pending = s.pending := rfl
@[simp] theorem State.fail_response (s : State) (st : Status) : (s.fail st).response = some ⟨st, 0#64⟩ := rfl

@[simp] theorem State.resetRegisters_frState (s : State) : (s.resetRegisters).frState = .idle := rfl
@[simp] theorem State.resetRegisters_frFill (s : State) : (s.resetRegisters).frFill = 0 := rfl
@[simp] theorem State.resetRegisters_frLen (s : State) : (s.resetRegisters).frLen = 0 := rfl
@[simp] theorem State.resetRegisters_frReady (s : State) : (s.resetRegisters).frReady = false := rfl
@[simp] theorem State.resetRegisters_frResv (s : State) : (s.resetRegisters).frResv = false := rfl
@[simp] theorem State.resetRegisters_crcAcc (s : State) : (s.resetRegisters).crcAcc = 0 := rfl
@[simp] theorem State.resetRegisters_buf (s : State) : (s.resetRegisters).buf = s.buf := rfl
@[simp] theorem State.resetRegisters_pending (s : State) : (s.resetRegisters).pending = s.pending := rfl
@[simp] theorem State.resetRegisters_response (s : State) : (s.resetRegisters).response = s.response := rfl

@[simp] theorem State.powerOn_frState (s : State) : (s.powerOn).frState = .idle := rfl
@[simp] theorem State.powerOn_frFill (s : State) : (s.powerOn).frFill = 0 := rfl
@[simp] theorem State.powerOn_frLen (s : State) : (s.powerOn).frLen = 0 := rfl
@[simp] theorem State.powerOn_frReady (s : State) : (s.powerOn).frReady = false := rfl
@[simp] theorem State.powerOn_frResv (s : State) : (s.powerOn).frResv = false := rfl
@[simp] theorem State.powerOn_crcAcc (s : State) : (s.powerOn).crcAcc = 0 := rfl
@[simp] theorem State.powerOn_buf (s : State) : (s.powerOn).buf = [] := rfl
@[simp] theorem State.powerOn_pending (s : State) : (s.powerOn).pending = s.pending := rfl
@[simp] theorem State.powerOn_response (s : State) : (s.powerOn).response = none := rfl

@[simp] theorem State.hold_eq (s : State) : s.hold = s := rfl

/-- A host write answers BUSY and changes nothing else, or writes the buffer and clears `fr_ready` (R184, R201). -/
theorem State.hostWrite_idle {s : State} (m : Memory) (h : s.frState = .idle) :
    s.hostWrite m = { s with buf := m, frReady := false, response := some ⟨.ok, 0#64⟩ } := by
  simp [State.hostWrite, h, State.respond]

theorem State.hostWrite_busy {s : State} (m : Memory) (h : s.frState ≠ .idle) :
    s.hostWrite m = { s with response := some ⟨.busy, 0#64⟩ } := by
  simp [State.hostWrite, h, State.fail, State.respond]

@[simp] theorem State.hostWrite_frState (s : State) (m : Memory) : (s.hostWrite m).frState = s.frState := by
  unfold State.hostWrite; split <;> rfl
@[simp] theorem State.hostWrite_frFill (s : State) (m : Memory) : (s.hostWrite m).frFill = s.frFill := by
  unfold State.hostWrite; split <;> rfl
@[simp] theorem State.hostWrite_frLen (s : State) (m : Memory) : (s.hostWrite m).frLen = s.frLen := by
  unfold State.hostWrite; split <;> rfl
@[simp] theorem State.hostWrite_frResv (s : State) (m : Memory) : (s.hostWrite m).frResv = s.frResv := by
  unfold State.hostWrite; split <;> rfl
@[simp] theorem State.hostWrite_crcAcc (s : State) (m : Memory) : (s.hostWrite m).crcAcc = s.crcAcc := by
  unfold State.hostWrite; split <;> rfl
@[simp] theorem State.hostWrite_pending (s : State) (m : Memory) : (s.hostWrite m).pending = s.pending := by
  unfold State.hostWrite; split <;> rfl

@[simp] theorem State.withFetchWord_pending (s : State) (n w : Nat) (h : Command)
    (e : commandOfBits n w = h) : (s.withFetchWord n w).pending = .command h :: s.pending := by
  rw [← e]; rfl

end Sys2Proof.Machine
end

