-- ==== Sys2Proof/Laws/Step.lean ====
section
/-! SUPPORT. Everything one command and one step can do, said once. -/

namespace Sys2Proof.Machine

/-- A command whose meaning answers does one of five things: it only responds, it resets the registers, it writes the
generator's register, it writes the buffer for the host, or it is a PUSH (R32). -/
theorem exec_cases {i : Instr} {s t : State} (h : exec i s = .next t) :
    (∃ r, t = { s with response := some r }) ∨
    (i = .reset ∧ t = s.resetRegisters.respond .ok 0#64) ∨
    ((i = .crcInit ∨ (∃ d, i = .crcByte d) ∨ ∃ n, i = .crcBuf n) ∧
      ∃ c d, t = { s with crcAcc := c, response := some ⟨.ok, d⟩ }) ∨
    (((∃ idx d, i = .bufWr idx d) ∨ (∃ pos len v, i = .setu pos len v) ∨ ∃ pos len v, i = .sets pos len v) ∧
      s.frState = .idle ∧
      ∃ m, (s.buf.wf → m.wf) ∧ t = { s with buf := m, frReady := false, response := some ⟨.ok, 0#64⟩ }) ∨
    (∃ d, i = .push d ∧ execPush d s = .next t) := by
  have hostWrite {m : Memory} (hm : s.buf.wf → m.wf) (ht : s.hostWrite m = t) :
      (∃ r, t = { s with response := some r }) ∨
      (s.frState = .idle ∧
        ∃ m, (s.buf.wf → m.wf) ∧ t = { s with buf := m, frReady := false, response := some ⟨.ok, 0#64⟩ }) := by
    by_cases hs : s.frState = .idle
    · exact .inr ⟨hs, m, hm, by rw [← ht, State.hostWrite_idle m hs]⟩
    · exact .inl ⟨_, by rw [← ht, State.hostWrite_busy m hs]⟩
  cases i with
  | nop => injection h with h; exact .inl ⟨_, h.symm⟩
  | reset => injection h with h; exact .inr (.inl ⟨rfl, h.symm⟩)
  | push d => exact .inr (.inr (.inr (.inr ⟨d, rfl, h⟩)))
  | status => injection h with h; exact .inl ⟨_, h.symm⟩
  | bufRd idx =>
    simp only [exec, execBufRd] at h
    split at h <;> (injection h with h; exact .inl ⟨_, h.symm⟩)
  | bufWr idx d =>
    simp only [exec, execBufWr] at h
    split at h
    · next hi =>
      injection h with h
      rcases hostWrite (fun hw => Memory.write_wf hw hi d) h with h | h
      · exact .inl h
      · exact .inr (.inr (.inr (.inl ⟨.inl ⟨idx, d, rfl⟩, h⟩)))
    · injection h with h; exact .inl ⟨_, h.symm⟩
  | crcInit => injection h with h; exact .inr (.inr (.inl ⟨.inl rfl, _, _, h.symm⟩))
  | crcByte d => injection h with h; exact .inr (.inr (.inl ⟨.inr (.inl ⟨d, rfl⟩), _, _, h.symm⟩))
  | crcBuf n =>
    simp only [exec, execCrcBuf] at h
    split at h
    · injection h with h; exact .inr (.inr (.inl ⟨.inr (.inr ⟨n, rfl⟩), _, _, h.symm⟩))
    · injection h with h; exact .inl ⟨_, h.symm⟩
  | getu pos len =>
    simp only [exec, execGetu] at h
    split at h <;> (injection h with h; exact .inl ⟨_, h.symm⟩)
  | gets pos len =>
    simp only [exec, execGets] at h
    split at h <;> (injection h with h; exact .inl ⟨_, h.symm⟩)
  | gets38 pos =>
    simp only [exec, execGets38] at h
    split at h <;> (injection h with h; exact .inl ⟨_, h.symm⟩)
  | getsm pos len =>
    simp only [exec, execGetsm] at h
    split at h <;> (injection h with h; exact .inl ⟨_, h.symm⟩)
  | setu pos len v =>
    simp only [exec, execSetu] at h
    split at h
    · next hi =>
      injection h with h
      rcases hostWrite (fun hw => Memory.writeField_wf hw hi.1.2.2 v) h with h | h
      · exact .inl h
      · exact .inr (.inr (.inr (.inl ⟨.inr (.inl ⟨pos, len, v, rfl⟩), h⟩)))
    · injection h with h; exact .inl ⟨_, h.symm⟩
  | sets pos len v =>
    simp only [exec, execSets] at h
    split at h
    · next hi =>
      injection h with h
      rcases hostWrite (fun hw => Memory.writeField_wf hw hi.1.2.2 v) h with h | h
      · exact .inl h
      · exact .inr (.inr (.inr (.inl ⟨.inr (.inr ⟨pos, len, v, rfl⟩), h⟩)))
    · injection h with h; exact .inl ⟨_, h.symm⟩

/-- No command is refused. -/
theorem exec_ne_refused (i : Instr) (s : State) (r : Refusal) : exec i s ≠ .refused r := by
  intro h
  cases i with
  | push d =>
    simp only [exec, execPush] at h
    split at h <;> try cases h
    all_goals (unfold storeAtFill at h; split at h <;> cases h)
  | nop | reset | status | crcInit | crcByte => cases h
  | bufRd => simp only [exec, execBufRd] at h; split at h <;> cases h
  | bufWr => simp only [exec, execBufWr] at h; split at h <;> cases h
  | crcBuf => simp only [exec, execCrcBuf] at h; split at h <;> cases h
  | getu => simp only [exec, execGetu] at h; split at h <;> cases h
  | gets => simp only [exec, execGets] at h; split at h <;> cases h
  | gets38 => simp only [exec, execGets38] at h; split at h <;> cases h
  | getsm => simp only [exec, execGetsm] at h; split at h <;> cases h
  | setu => simp only [exec, execSetu] at h; split at h <;> cases h
  | sets => simp only [exec, execSets] at h; split at h <;> cases h

/-- A PUSH whose store index is in the buffer answers, in every framer state. -/
theorem execPush_answers {s : State} (h : s.frFill.toNat < Config.bufBytes) (d : Byte) :
    ∃ t, exec (.push d) s = .next t := by
  simp only [exec, execPush]
  split
  · exact ⟨_, rfl⟩
  · exact ⟨_, rfl⟩
  · exact ⟨_, rfl⟩
  · exact ⟨_, if_pos h⟩
  · exact ⟨_, if_pos h⟩

/-- The invariant keeps the store index in the buffer (R24, R162). -/
theorem Inv.fill_lt {s : State} (h : Inv s) : s.frFill.toNat < Config.bufBytes := by
  have hf := h.fill
  have := s.frLen.isLt
  unfold FillInv at hf
  simp only [Config.bufBytes]
  split at hf <;> omega

/-- What a step does, by the oldest input of the host (R11, R230). -/
theorem step_cases {s t : State} (h : step s = .next t) :
    (s.pending = [] ∧ t = s) ∨
    (∃ rest, s.pending = .rst :: rest ∧ t = { s with pending := rest }.powerOn) ∨
    (∃ c rest why, s.pending = .command c :: rest ∧ decode c = .illegal why ∧
      t = { s with pending := rest }.fail .illegal) ∨
    (∃ c rest i, s.pending = .command c :: rest ∧ decode c = .instr i ∧ exec i { s with pending := rest } = .next t) := by
  unfold step at h
  split at h
  · next hp => injection h with h; exact .inl ⟨hp, h.symm⟩
  · next rest hp => injection h with h; exact .inr (.inl ⟨rest, hp, h.symm⟩)
  · next c rest hp =>
    split at h
    · next i hd => exact .inr (.inr (.inr ⟨c, rest, i, hp, hd, h⟩))
    · next why hd => injection h with h; exact .inr (.inr (.inl ⟨c, rest, why, hp, hd, h.symm⟩))

end Sys2Proof.Machine
end

