-- ==== Sys2Proof/Tests/Slice0.lean ====
section
/-! SUPPORT. The model's own tests. Expected values come from spec/: the words of R69, the tables of R131 and R138, and the vectors
of 95_test_vectors.md; each group names its source. Then, for every statement with hypotheses, a state and operands that meet them. -/

namespace Sys2Proof.Tests

open Sys2Proof.Machine

/-! ## Well-formedness (R69: "An assembler refuses an operand that does not fit its field") -/

theorem test_wf_bufRd : (Instr.bufRd 16384).wf = false ∧ (Instr.bufRd 16383).wf = true := by decide
theorem test_wf_bufWr : (Instr.bufWr 16384 0).wf = false ∧ (Instr.bufWr 16383 255).wf = true := by decide
theorem test_wf_crcBuf : (Instr.crcBuf 16384).wf = false ∧ (Instr.crcBuf 16383).wf = true := by decide
theorem test_wf_gets38 : (Instr.gets38 16384).wf = false ∧ (Instr.gets38 16383).wf = true := by decide
theorem test_wf_getu : (Instr.getu 16384 1).wf = false ∧ (Instr.getu 0 64).wf = false ∧ (Instr.getu 16383 63).wf = true := by
  decide
theorem test_wf_gets : (Instr.gets 16384 1).wf = false ∧ (Instr.gets 0 64).wf = false ∧ (Instr.gets 16383 63).wf = true := by
  decide
theorem test_wf_getsm : (Instr.getsm 16384 1).wf = false ∧ (Instr.getsm 0 64).wf = false ∧ (Instr.getsm 0 63).wf = true := by
  decide
theorem test_wf_setu : (Instr.setu 16384 1 0).wf = false ∧ (Instr.setu 0 64 0).wf = false ∧ (Instr.setu 0 63 0).wf = true := by
  decide
theorem test_wf_sets : (Instr.sets 16384 1 0).wf = false ∧ (Instr.sets 0 64 0).wf = false ∧ (Instr.sets 0 63 0).wf = true := by
  decide

/-! ## Decoding: words written out bit by bit from R61 and R63, OP, LEN, F14, DATA -/

theorem test_decode_nop : decode ⟨0b0000_000000_00000000000000_00000000, 0⟩ = .instr .nop := by decide
theorem test_decode_reset : decode ⟨0b0001_000000_00000000000000_00000000, 0⟩ = .instr .reset := by decide
theorem test_decode_push : decode ⟨0b0010_000000_00000000000000_11010011, 0⟩ = .instr (.push 0xD3) := by decide
theorem test_decode_status : decode ⟨0b0011_000000_00000000000000_00000000, 0⟩ = .instr .status := by decide
theorem test_decode_bufRd : decode ⟨0b0100_000000_00010000000101_00000000, 0⟩ = .instr (.bufRd 1029) := by decide
theorem test_decode_bufWr : decode ⟨0b0101_000000_00000000000101_00010001, 0⟩ = .instr (.bufWr 5 0x11) := by decide
theorem test_decode_crcInit : decode ⟨0b0110_000000_00000000000000_00000000, 0⟩ = .instr .crcInit := by decide
theorem test_decode_crcByte : decode ⟨0b0111_000000_00000000000000_01010101, 0⟩ = .instr (.crcByte 0x55) := by decide
theorem test_decode_crcBuf : decode ⟨0b1000_000000_00010000000010_00000000, 0⟩ = .instr (.crcBuf 1026) := by decide
theorem test_decode_getu : decode ⟨0b1001_001100_00000000011000_00000000, 0⟩ = .instr (.getu 24 12) := by decide
theorem test_decode_gets : decode ⟨0b1010_000111_00000001111001_00000000, 0⟩ = .instr (.gets 121 7) := by decide
theorem test_decode_gets38 : decode ⟨0b1011_000000_10000000000010_00000000, 0⟩ = .instr (.gets38 8194) := by decide
theorem test_decode_getsm : decode ⟨0b1100_010001_00000001001000_00000000, 0⟩ = .instr (.getsm 72 17) := by decide
theorem test_decode_setu : decode ⟨0b1101_100000_00000000101000_00000000, 0xDEADBEEF⟩ = .instr (.setu 40 32 0xDEADBEEF) := by decide
theorem test_decode_sets : decode ⟨0b1110_000110_00000000011110_00000000, 0xFFFFFFE0⟩ = .instr (.sets 30 6 0xFFFFFFE0) := by decide

/-- Section 2.5 of 95_test_vectors.md: the reserved opcode. -/
theorem test_decode_reserved : decode ⟨0xF0000000, 0⟩ = .illegal .reservedOpcode ∧ decode ⟨0xFFFFFFFF, 0⟩ = .illegal .reservedOpcode := by
  decide

/-- Sections 2.1 and 2.5: a must-be-zero bit set, for the rows listed there. -/
theorem test_decode_must_be_zero :
    decode ⟨0x00000001, 0⟩ = .illegal (.mustBeZero .nop) ∧ decode ⟨0x18000000, 0⟩ = .illegal (.mustBeZero .reset) ∧
    decode ⟨0x204000D3, 0⟩ = .illegal (.mustBeZero .push) ∧ decode ⟨0x92000001, 0⟩ = .illegal (.mustBeZero .getu) ∧
    decode ⟨0xB9800000, 0⟩ = .illegal (.mustBeZero .gets38) ∧ decode ⟨0x40000510, 0⟩ = .illegal (.mustBeZero .bufRd) ∧
    decode ⟨0x50400000, 0⟩ = .illegal (.mustBeZero .bufWr) ∧ decode ⟨0x30000100, 0⟩ = .illegal (.mustBeZero .status) ∧
    decode ⟨0x60000001, 0⟩ = .illegal (.mustBeZero .crcInit) ∧ decode ⟨0x70400000, 0⟩ = .illegal (.mustBeZero .crcByte) := by
  decide

/-- The masks and matches of spec/opcode_table.json, by opcode. -/
def tableRows : List (Opcode × Word × Word) :=
  [(.nop, 0xFFFFFFFF, 0x00000000), (.reset, 0xFFFFFFFF, 0x10000000), (.push, 0xFFFFFF00, 0x20000000),
   (.status, 0xFFFFFFFF, 0x30000000), (.bufRd, 0xFFC000FF, 0x40000000), (.bufWr, 0xFFC00000, 0x50000000),
   (.crcInit, 0xFFFFFFFF, 0x60000000), (.crcByte, 0xFFFFFF00, 0x70000000), (.crcBuf, 0xFFC000FF, 0x80000000),
   (.getu, 0xF00000FF, 0x90000000), (.gets, 0xF00000FF, 0xA0000000), (.gets38, 0xFFC000FF, 0xB0000000),
   (.getsm, 0xF00000FF, 0xC0000000), (.setu, 0xF00000FF, 0xD0000000), (.sets, 0xF00000FF, 0xE0000000)]

/-- R75: each row's mask is `0xF0000000 | MBZ(OP)` and its match is `OP << 28`. -/
theorem test_table_masks : ∀ r ∈ tableRows, r.2.1 = 0xF0000000 ||| r.1.mbz ∧ r.2.2 = r.1.code ++ 0#28 := by decide

/-- No word fits two rows. -/
theorem test_table_rows_disjoint :
    tableRows.Pairwise fun a b => a.2.2 &&& (a.2.1 &&& b.2.1) ≠ b.2.2 &&& (a.2.1 &&& b.2.1) := by decide

/-- The assembler writes the words of R69. -/
theorem test_encode_words : encode (.getu 24 12) = ⟨0x93001800, 0⟩ ∧ encode (.sets 24 20 0xFFFFFFFB) = ⟨0xE5001800, 0xFFFFFFFB⟩ ∧
    encode (.bufWr 5 0x11) = ⟨0x50000511, 0⟩ ∧ encode (.crcBuf 1030) = ⟨0x80040600, 0⟩ := by decide

/-! ## The CRC-24Q generator (R131, R138) -/

def table0 : List Crc :=
  [0x000000, 0x864CFB, 0x8AD50D, 0x0C99F6, 0x93E6E1, 0x15AA1A, 0x1933EC, 0x9F7F17,
   0xA18139, 0x27CDC2, 0x2B5434, 0xAD18CF, 0x3267D8, 0xB42B23, 0xB8B2D5, 0x3EFE2E,
   0xC54E89, 0x430272, 0x4F9B84, 0xC9D77F, 0x56A868, 0xD0E493, 0xDC7D65, 0x5A319E,
   0x64CFB0, 0xE2834B, 0xEE1ABD, 0x685646, 0xF72951, 0x7165AA, 0x7DFC5C, 0xFBB0A7,
   0x0CD1E9, 0x8A9D12, 0x8604E4, 0x00481F, 0x9F3708, 0x197BF3, 0x15E205, 0x93AEFE,
   0xAD50D0, 0x2B1C2B, 0x2785DD, 0xA1C926, 0x3EB631, 0xB8FACA, 0xB4633C, 0x322FC7,
   0xC99F60, 0x4FD39B, 0x434A6D, 0xC50696, 0x5A7981, 0xDC357A, 0xD0AC8C, 0x56E077,
   0x681E59, 0xEE52A2, 0xE2CB54, 0x6487AF, 0xFBF8B8, 0x7DB443, 0x712DB5, 0xF7614E]

def table1 : List Crc :=
  [0x19A3D2, 0x9FEF29, 0x9376DF, 0x153A24, 0x8A4533, 0x0C09C8, 0x00903E, 0x86DCC5,
   0xB822EB, 0x3E6E10, 0x32F7E6, 0xB4BB1D, 0x2BC40A, 0xAD88F1, 0xA11107, 0x275DFC,
   0xDCED5B, 0x5AA1A0, 0x563856, 0xD074AD, 0x4F0BBA, 0xC94741, 0xC5DEB7, 0x43924C,
   0x7D6C62, 0xFB2099, 0xF7B96F, 0x71F594, 0xEE8A83, 0x68C678, 0x645F8E, 0xE21375,
   0x15723B, 0x933EC0, 0x9FA736, 0x19EBCD, 0x8694DA, 0x00D821, 0x0C41D7, 0x8A0D2C,
   0xB4F302, 0x32BFF9, 0x3E260F, 0xB86AF4, 0x2715E3, 0xA15918, 0xADC0EE, 0x2B8C15,
   0xD03CB2, 0x567049, 0x5AE9BF, 0xDCA544, 0x43DA53, 0xC596A8, 0xC90F5E, 0x4F43A5,
   0x71BD8B, 0xF7F170, 0xFB6886, 0x7D247D, 0xE25B6A, 0x641791, 0x688E67, 0xEEC29C]

def table2 : List Crc :=
  [0x3347A4, 0xB50B5F, 0xB992A9, 0x3FDE52, 0xA0A145, 0x26EDBE, 0x2A7448, 0xAC38B3,
   0x92C69D, 0x148A66, 0x181390, 0x9E5F6B, 0x01207C, 0x876C87, 0x8BF571, 0x0DB98A,
   0xF6092D, 0x7045D6, 0x7CDC20, 0xFA90DB, 0x65EFCC, 0xE3A337, 0xEF3AC1, 0x69763A,
   0x578814, 0xD1C4EF, 0xDD5D19, 0x5B11E2, 0xC46EF5, 0x42220E, 0x4EBBF8, 0xC8F703,
   0x3F964D, 0xB9DAB6, 0xB54340, 0x330FBB, 0xAC70AC, 0x2A3C57, 0x26A5A1, 0xA0E95A,
   0x9E1774, 0x185B8F, 0x14C279, 0x928E82, 0x0DF195, 0x8BBD6E, 0x872498, 0x016863,
   0xFAD8C4, 0x7C943F, 0x700DC9, 0xF64132, 0x693E25, 0xEF72DE, 0xE3EB28, 0x65A7D3,
   0x5B59FD, 0xDD1506, 0xD18CF0, 0x57C00B, 0xC8BF1C, 0x4EF3E7, 0x426A11, 0xC426EA]

def table3 : List Crc :=
  [0x2AE476, 0xACA88D, 0xA0317B, 0x267D80, 0xB90297, 0x3F4E6C, 0x33D79A, 0xB59B61,
   0x8B654F, 0x0D29B4, 0x01B042, 0x87FCB9, 0x1883AE, 0x9ECF55, 0x9256A3, 0x141A58,
   0xEFAAFF, 0x69E604, 0x657FF2, 0xE33309, 0x7C4C1E, 0xFA00E5, 0xF69913, 0x70D5E8,
   0x4E2BC6, 0xC8673D, 0xC4FECB, 0x42B230, 0xDDCD27, 0x5B81DC, 0x57182A, 0xD154D1,
   0x26359F, 0xA07964, 0xACE092, 0x2AAC69, 0xB5D37E, 0x339F85, 0x3F0673, 0xB94A88,
   0x87B4A6, 0x01F85D, 0x0D61AB, 0x8B2D50, 0x145247, 0x921EBC, 0x9E874A, 0x18CBB1,
   0xE37B16, 0x6537ED, 0x69AE1B, 0xEFE2E0, 0x709DF7, 0xF6D10C, 0xFA48FA, 0x7C0401,
   0x42FA2F, 0xC4B6D4, 0xC82F22, 0x4E63D9, 0xD11CCE, 0x575035, 0x5BC9C3, 0xDD8538]

/-- The 256 entries printed in R131. -/
theorem test_crc_table :
    (List.range 256).map (fun i => crcTable (BitVec.ofNat 8 i)) = table0 ++ table1 ++ table2 ++ table3 := by decide +kernel

/-- The reference values of R138, the published check value among them. -/
theorem test_crc_reference_values :
    crcOfBytes [] = 0x000000 ∧ crcOfBytes [0x01] = 0x864CFB ∧ crcOfBytes [0x80] = 0x3347A4 ∧ crcOfBytes [0xFF] = 0xDD8538 ∧
    crcOfBytes [0xD3, 0x00, 0x00] = 0x47EA4B ∧ crcOfBytes [0xFF, 0xFF, 0xFF] = 0xEDF8CE ∧
    crcOfBytes [0x31, 0x32, 0x33, 0x34, 0x35, 0x36, 0x37, 0x38, 0x39] = 0xCDE703 ∧
    crcOfBytes [0xD3, 0x00, 0x00, 0x47, 0xEA, 0x4B] = 0x000000 := by decide

/-! ## One step per command, with the vectors of 95_test_vectors.md -/

/-- The response of an outcome. -/
def answer (o : Host.Outcome State Fault Refusal) : Option Response :=
  match o with
  | .next t => t.response
  | .fault _ => none
  | .refused _ => none

/-- A property of the next state; false where there is none. -/
def nextIs (o : Host.Outcome State Fault Refusal) (p : State → Bool) : Bool :=
  match o with
  | .next t => p t
  | .fault _ => false
  | .refused _ => false

/-- Fixture FIX1 of section 2.2. -/
def fix1 : State :=
  { State.reset with
    buf :=
      [(0, 0xD3), (1, 0x00), (2, 0x13), (3, 0x3E), (4, 0xD7), (5, 0xD3), (6, 0x02), (7, 0x02), (8, 0x80), (9, 0x00), (10, 0x01), (11, 0xFF), (12, 0xFF), (13, 0xFF), (14, 0xFF), (15, 0x7F)]
      ++ [(1024, 0x12), (1025, 0x34), (1026, 0x56), (1027, 0x78), (1028, 0xA5)] }

/-- The first 16 bytes zero, as in section 2.3. -/
def zeros : State := { State.reset with buf := (List.range 16).map fun i => (i, 0) }

/-- The bytes of a frame in flight: the state `fr_state`, `fr_len` and the bytes pushed so far. -/
def inFlight (st : FrState) (len : BitVec 10) (resv : Bool) (bytes : List Byte) : State :=
  { State.reset with
    frState := st
    frFill := BitVec.ofNat 11 bytes.length
    frLen := len
    frResv := resv
    buf := (List.range bytes.length).zip bytes }

/-! Section 2.2, on FIX1. -/

theorem test_getu_unaligned_and_end : answer (exec (.getu 3 32) fix1) = some ⟨.ok, 0x980099F6⟩ ∧
    answer (exec (.getu 8200 32) fix1) = some ⟨.ok, 0x345678A5⟩ := by decide
theorem test_getu_range : answer (exec (.getu 8225 8) fix1) = some ⟨.range, 0⟩ := by decide
theorem test_gets_negative : answer (exec (.gets 0 12) fix1) = some ⟨.ok, 0xFFFFFFFFFFFFFD30⟩ := by decide
theorem test_gets_one_bit : answer (exec (.gets 88 1) fix1) = some ⟨.ok, 0xFFFFFFFFFFFFFFFF⟩ := by decide
theorem test_gets38_negative_and_end : answer (exec (.gets38 0) fix1) = some ⟨.ok, 0xFFFFFFF4C004CFB5⟩ ∧
    answer (exec (.gets38 8194) fix1) = some ⟨.ok, 0x12345678A5⟩ := by decide
theorem test_gets38_range : answer (exec (.gets38 8195) fix1) = some ⟨.range, 0⟩ := by decide
theorem test_getsm_negative : answer (exec (.getsm 0 8) fix1) = some ⟨.ok, 0xFFFFFFFFFFFFFFAD⟩ := by decide
theorem test_getsm_negative_zero : answer (exec (.getsm 64 9) fix1) = some ⟨.ok, 0⟩ := by decide
theorem test_bufRd_byte : answer (exec (.bufRd 1028) fix1) = some ⟨.ok, 0xA5⟩ := by decide
theorem test_bufRd_range : answer (exec (.bufRd 1029) fix1) = some ⟨.range, 0⟩ := by decide
theorem test_crcBuf_range : answer (exec (.crcBuf 1030) fix1) = some ⟨.range, 0⟩ := by decide

/-! Section 2.3: the bytes after one write. -/

theorem test_setu_crosses_bytes : nextIs (exec (.setu 10 12 0xABC) zeros) (fun t =>
    t.buf.byte 0 == 0x00 && t.buf.byte 1 == 0x2A && t.buf.byte 2 == 0xF0 && t.buf.byte 3 == 0x00) = true := by decide
theorem test_setu_value_range : answer (exec (.setu 80 4 0xFFFFFFF5) zeros) = some ⟨.range, 0⟩ := by decide
theorem test_sets_crosses_bytes : nextIs (exec (.sets 30 6 0xFFFFFFE0) zeros) (fun t =>
    t.buf.byte 3 == 0x02 && t.buf.byte 4 == 0x00) = true := by decide
theorem test_sets_one_bit_range : answer (exec (.sets 90 1 1) zeros) = some ⟨.range, 0⟩ ∧
    answer (exec (.sets 90 1 0xFFFFFFFF) zeros) = some ⟨.ok, 0⟩ := by decide

/-! Section 2.5 and program P4: the host writes. -/

theorem test_bufWr_idle : nextIs (exec (.bufWr 0 0xD3) { zeros with frReady := true }) (fun t =>
    t.buf.byte 0 == 0xD3 && t.frReady == false && t.frFill == 0) = true := by decide
theorem test_bufWr_busy_after_range : answer (exec (.bufWr 5 0x11) (inFlight .len1 0 false [0xD3])) = some ⟨.busy, 0⟩ ∧
    answer (exec (.bufWr 1029 0) (inFlight .len1 0 false [0xD3])) = some ⟨.range, 0⟩ := by decide

/-! Section 2.1: the generator. -/

theorem test_crcByte : answer (exec (.crcByte 0x00) { State.reset with crcAcc := 0xE33309 }) = some ⟨.ok, 0x19A569⟩ := by
  decide
theorem test_crcBuf_prefix : answer (exec (.crcBuf 3) (inFlight .crc 0 false [0xD3, 0, 0])) = some ⟨.ok, 0x47EA4B⟩ := by
  decide
theorem test_crcInit : nextIs (exec .crcInit { State.reset with crcAcc := 0xE33309 }) (fun t => t.crcAcc == 0) = true := by
  decide

/-! Program P4, steps 16 to 18: STATUS and RESET; section 2.5: NOP. -/

theorem test_status_word : answer (exec .status { inFlight .len1 0 false [0xD3] with crcAcc := 0x47EA4B })
    = some ⟨.ok, 0x00011FA92C008001⟩ := by decide
theorem test_status_payload : answer (exec .status (inFlight .payload 18 false [0xD3, 0x00, 0x12, 0x3E]))
    = some ⟨.ok, 0x20243⟩ := by decide
theorem test_reset_keeps_buffer : nextIs (exec .reset { inFlight .len1 0 false [0xD3] with crcAcc := 0x47EA4B }) (fun t =>
    t.frState == .idle && t.frFill == 0 && t.crcAcc == 0 && t.buf.byte 0 == 0xD3) = true := by decide
theorem test_nop : answer (exec .nop fix1) = some ⟨.ok, 0⟩ := by decide

/-! Section 2.4: PUSH. -/

/-- F10 to F12: IDLE. F9: the header bytes D3 00 give L = 768 and the flag. R154: a length of 0 skips PAYLOAD. R155: index L + 2 ends
the payload. -/
theorem test_push_before_trailer :
    nextIs (exec (.push 0x55) { fix1 with frReady := true }) (fun t =>
      t == { fix1 with frReady := true, response := some ⟨.ok, 0⟩ }) = true ∧
    nextIs (exec (.push 0xD3) { fix1 with frReady := true }) (fun t => t.statusWord == 0x8001) = true ∧
    nextIs (exec (.push 0x00) (inFlight .len2 0 false [0xD3, 0xD3])) (fun t => t.statusWord == 0x1E013) = true ∧
    nextIs (exec (.push 0x00) (inFlight .len2 0 false [0xD3, 0x00])) (fun t => t.frState == .crc && t.frFill == 3) = true ∧
    nextIs (exec (.push 0x42) (inFlight .payload 1 false [0xD3, 0x00, 0x01])) (fun t =>
      t.frState == .crc && t.frFill == 4 && t.buf.byte 3 == 0x42) = true := by
  decide

/-- F1, F2 and F14: the last byte of a good frame, of a bad one, and of one with reserved value 1 and L = 1. -/
theorem test_push_last_trailer_byte :
    nextIs (exec (.push 0x4B) (inFlight .crc 0 false [0xD3, 0, 0, 0x47, 0xEA])) (fun t =>
      t.response == some ⟨.frame, 0x047EA4B47EA4B003⟩ && t.statusWord == 0x8) = true ∧
    nextIs (exec (.push 0x4A) (inFlight .crc 0 false [0xD3, 0, 0, 0x47, 0xEA])) (fun t =>
      t.response == some ⟨.crcErr, 0x047EA4A47EA4B003⟩ && t.statusWord == 0) = true ∧
    nextIs (exec (.push 0x03) (inFlight .crc 1 true [0xD3, 0x04, 0x01, 0x42, 0x1F, 0x9C])) (fun t =>
      t.response == some ⟨.frame, 0x01F9C031F9C03804⟩ && t.statusWord == 0x38) = true := by
  decide

/-! ## The host's view: each row of the table runs as the first command after reset -/

/-- Whether the step goes on. -/
def goesOn (o : Host.Outcome State Fault Refusal) : Bool := nextIs o fun _ => true

theorem test_every_row_runs : ∀ r ∈ tableRows, (decodeTableWord 32 r.2.2.toNat).map Instr.opcode = some r.1 ∧
    goesOn (step (State.reset.withFetchWord 32 r.2.2.toNat)) = true := by decide

/-- Bits 63..32 of a table word are the argument word. -/
theorem test_table_word_argument : decodeTableWord 64 0x00000ABCD3000A00 = some (.setu 10 12 0xABC) := by decide

/-! ## Witnesses: for each statement with hypotheses, values that meet them -/

/-- DecodeOfEncode, EncodeOfDecode. -/
theorem witness_wellFormed_and_decoded : (Instr.setu 16383 63 0xFFFFFFFF).wf = true ∧
    decode ⟨0xDFFFFF00, 0xFFFFFFFF⟩ = .instr (.setu 16383 63 0xFFFFFFFF) := by decide

/-- WordsOutsideTheTableAreIllegal: a word outside every row, a word inside one, a word of each opcode without fields. -/
theorem witness_table_clauses : (¬ ∃ r ∈ tableRows, (0xF0000000 : Word) &&& r.2.1 = r.2.2) ∧
    (∃ r ∈ tableRows, (0x9FFFFF00 : Word) &&& r.2.1 = r.2.2) ∧
    (∀ v ∈ [(0x0 : BitVec 4), 0x1, 0x3, 0x6], ((v ++ 0#28 : BitVec 32)).extractLsb' 28 4 = v) := by decide

/-- ArgumentWordIgnored. -/
theorem witness_argument_ignored : (0x90400000 : Word).extractLsb' 28 4 ≠ 0xD#4 ∧ (0x90400000 : Word).extractLsb' 28 4 ≠ 0xE#4 := by
  decide

/-- StepPerformsDecodedCommand, BlockAlwaysGoesOn (the pending command), FailedCommandHasNoEffect for RANGE. -/
theorem witness_pending_command : (State.reset.withFetchWord 32 0x40040500).pending = [.command ⟨0x40040500, 0⟩] ∧
    decode ⟨0x40040500, 0⟩ = .instr (.bufRd 1029) ∧
    answer (step (State.reset.withFetchWord 32 0x40040500)) = some ⟨.range, 0⟩ := by decide

/-- StepPerformsDecodedCommand, the clause without input. -/
theorem witness_no_input : State.reset.pending = [] := rfl

/-- FailedCommandHasNoEffect for ILLEGAL and for BUSY. -/
theorem witness_failed_commands : answer (step (State.reset.withFetchWord 32 0xF0000000)) = some ⟨.illegal, 0⟩ ∧
    answer (step ((inFlight .len1 0 false [0xD3]).withFetchWord 32 0xD2000000)) = some ⟨.busy, 0⟩ := by decide

/-- EncodedAs, both clauses, for every row: the row's match, and the match with the must-be-zero bits set. -/
theorem witness_encodedAs : ∀ r ∈ tableRows,
    r.2.2.extractLsb' 28 4 = r.1.code ∧ r.2.2 &&& r.1.mbz = 0#32 ∧
      (r.2.2 ||| r.1.mbz).extractLsb' 28 4 = r.1.code ∧ (r.2.2 ||| r.1.mbz) &&& r.1.mbz ≠ 0#32 := by decide

/-- BufRdReadsByteOrRange, BufWrWritesByteOrRangeOrBusy: the index at both sides of its bound, IDLE and not. -/
theorem witness_index_bounds : 1028 < 1029 ∧ 1028 ≤ 1028 ∧ State.reset.frState = .idle ∧
    (inFlight .len1 0 false [0xD3]).frState ≠ .idle := by decide

/-- ReadReturnsLastByteWritten. -/
theorem witness_writes_in_range : State.reset.frState = .idle ∧
    ∀ w ∈ [((0 : Nat), (0x11 : Byte)), (1028, 0x22), (0, 0x33)], w.1 ≤ 1028 := by decide

/-- ByteViewAndBitViewAgree, NoiseIsSkipped, FrameEmittedExactlyIfCrcMatches, WireFrameIsEmitted, WrittenFieldReadsBack: IDLE. -/
theorem witness_idle : fix1.frState = .idle ∧ ∀ b ∈ [(0x00 : Byte), 0x55, 0xFF], b ≠ 0xD3#8 := by decide

/-- FrameEmittedExactlyIfCrcMatches: the declared lengths 0, 1 (with a reserved bit) and 1023. -/
theorem witness_declared_lengths : ([] : List Byte).length = ((0x00 : Byte).toNat % 4) * 256 + (0x00 : Byte).toNat ∧
    ([0x42] : List Byte).length = ((0x04 : Byte).toNat % 4) * 256 + (0x01 : Byte).toNat ∧
    (List.replicate 1023 (0 : Byte)).length = ((0x03 : Byte).toNat % 4) * 256 + (0xFF : Byte).toNat := by
  refine ⟨by decide, by decide, ?_⟩
  rw [List.length_replicate]
  decide

/-- FrameEmittedExactlyIfCrcMatches: a proper part of a frame's bytes. -/
theorem witness_proper_part : [(0xD3 : Byte), 0x00] ++ [0x00, 0x47, 0xEA, 0x4B] = 0xD3 :: 0x00 :: 0x00 :: ([] ++ [0x47, 0xEA, 0x4B]) ∧
    [(0xD3 : Byte), 0x00] ≠ [] ∧ [(0x00 : Byte), 0x47, 0xEA, 0x4B] ≠ [] := by decide

/-- WireFrameIsEmitted: a payload of two bytes, and the wire frame of F14. -/
theorem witness_wire_frame : ([0x3E, 0xD0] : List Byte).length ≤ 1023 ∧
    wireFrame 1 [0x42] = [0xD3, 0x04, 0x01, 0x42, 0x1F, 0x9C, 0x03] := by decide

/-- The field bounds of GetuReadsUnsignedField, GetsSignExtendsField, GetsmReadsSignMagnitudeField: each clause at its bounds. -/
theorem witness_field_bounds : (0 < 1 ∧ 32 < 33 ∧ 8232 < 8225 + 8) ∧ FieldInRange 0 1 ∧ FieldInRange 8200 32 ∧
    ¬ FieldInRange 0 0 ∧ ¬ FieldInRange 0 33 ∧ ¬ FieldInRange 8225 8 := by decide

/-- Gets38ReadsSigned38BitField: both sides of the bound. -/
theorem witness_field38_bounds : 8232 < 8195 + 38 ∧ 8194 + 38 ≤ 8232 := by decide

/-- SetuStoresFieldOrRangeOrBusy, WrittenFieldReadsBack: the largest value that fits and the smallest that does not. -/
theorem witness_unsigned_bounds : (0xF : Word).toNat < 2 ^ 4 ∧ 2 ^ 4 ≤ (0x10 : Word).toNat ∧ (0xFFFFFFFF : Word).toNat < 2 ^ 32 := by
  decide

/-- SetsStoresFieldOrRangeOrBusy, WrittenFieldReadsBack: the least and the greatest value that fit, and the next ones that do not. -/
theorem witness_signed_bounds : -(2 ^ (4 - 1)) ≤ (0xFFFFFFF8 : Word).toInt ∧ (7 : Word).toInt < 2 ^ (4 - 1) ∧
    (0xFFFFFFF7 : Word).toInt < -(2 ^ (4 - 1)) ∧ 2 ^ (4 - 1) ≤ (8 : Word).toInt ∧
    -(2 ^ (32 - 1)) ≤ (0x80000000 : Word).toInt ∧ (0x7FFFFFFF : Word).toInt < 2 ^ (32 - 1) := by decide

/-- GuardedReadsSeeOnlyTheFrame: the last fields inside a held frame of length 5, and a state that differs beyond it. -/
theorem witness_guarded_reads :
    let s : State := { fix1 with frLen := 5 }
    let u : State := { s with buf := s.buf.write 8 0x55 }
    s.frLen = u.frLen ∧ (∀ a, a < 8 → s.buf.byte a = u.buf.byte a) ∧ s.buf.byte 8 ≠ u.buf.byte 8 ∧
      32 + 32 ≤ 8 * (s.frLen.toNat + 3) ∧ 26 + 38 ≤ 8 * (s.frLen.toNat + 3) := by decide

/-- CrcBufIsCrcOfPrefix, BytePathAgreesWithBufferPath: both sides of the bound, and a held frame. -/
theorem witness_count_bounds : 1029 < 1030 ∧ 1029 ≤ 1029 ∧
    (inFlight .idle 0 false [0xD3, 0, 0, 0x47, 0xEA, 0x4B]).buf.crc24q 3
      = (inFlight .idle 0 false [0xD3, 0, 0, 0x47, 0xEA, 0x4B]).buf.read3 3 := by decide

theorem witness_held_frame : HoldsValidFrame (inFlight .idle 0 false [0xD3, 0, 0, 0x47, 0xEA, 0x4B]) := by
  refine ⟨?_, ?_, ?_, ?_⟩ <;> decide

/-- PushInIdle, PushInLen1, PushInLen2. -/
theorem witness_header_arms : State.reset.frState = .idle ∧ (inFlight .len1 0 false [0xD3]).frState = .len1 ∧
    (inFlight .len2 0 false [0xD3, 0x03]).frState = .len2 := by decide

/-- PushInPayload: the largest frame, at its last payload byte and before it. -/
theorem witness_payload_arm :
    let s : State := { State.reset with frState := .payload, frLen := 1023, frFill := 1025 }
    let u : State := { State.reset with frState := .payload, frLen := 1023, frFill := 3 }
    s.frState = .payload ∧ s.frFill.toNat ≤ 1028 ∧ s.frFill.toNat = s.frLen.toNat + 2 ∧
      u.frState = .payload ∧ u.frFill.toNat ≤ 1028 ∧ u.frFill.toNat ≠ u.frLen.toNat + 2 := by decide

/-- PushInCrc: the first and the last trailer byte of the largest frame; a matching and a mismatching trailer of the smallest. -/
theorem witness_crc_arm :
    let s : State := { State.reset with frState := .crc, frLen := 1023, frFill := 1026 }
    let u : State := { State.reset with frState := .crc, frLen := 1023, frFill := 1028 }
    let m := (inFlight .crc 0 false [0xD3, 0, 0, 0x47, 0xEA]).buf
    s.frFill.toNat ≤ 1028 ∧ s.frFill.toNat + 1 < s.frLen.toNat + 6 ∧
      u.frFill.toNat ≤ 1028 ∧ u.frLen.toNat + 6 ≤ u.frFill.toNat + 1 ∧
      (m.write 5 0x4B).crc24q 3 = (m.write 5 0x4B).read3 3 ∧ (m.write 5 0x4A).crc24q 3 ≠ (m.write 5 0x4A).read3 3 := by
  decide

/-- OnlyStoreOutsideBufferFaults: a state that stops, in both arms, at the first index outside the buffer. -/
theorem witness_fault : exec (.push 0) { State.reset with frState := .payload, frFill := 1029 } = .fault (.storeOutsideBuffer 1029) ∧
    exec (.push 0) { State.reset with frState := .crc, frFill := 1029 } = .fault (.storeOutsideBuffer 1029) := ⟨rfl, rfl⟩

/-- GeneratorAndFramerAreIndependent: a command that is no generator command and no RESET, and a PUSH that answers. -/
theorem witness_independence : goesOn (exec .status fix1) = true ∧ Instr.status ≠ .crcInit ∧ (∀ d, Instr.status ≠ .crcByte d) ∧
    (∀ n, Instr.status ≠ .crcBuf n) ∧ Instr.status ≠ .reset ∧ goesOn (exec (.push 0xD3) fix1) = true := by
  refine ⟨by decide, by decide, fun _ => by simp, fun _ => by simp, by decide, by decide⟩

/-- FrameInFlightIsUndisturbed, IllegalBeforeRangeBeforeBusy: a frame in flight and a command that is no PUSH and no RESET. -/
theorem witness_in_flight : (inFlight .len1 0 false [0xD3]).frState ≠ .idle ∧ (∀ d, Instr.bufWr 5 0x11 ≠ .push d) ∧
    Instr.bufWr 5 0x11 ≠ .reset := by
  refine ⟨by decide, fun _ => by simp, by decide⟩

/-- IllegalBeforeRangeBeforeBusy: words of the three rows, each with an illegal, an out-of-range and a good form. -/
theorem witness_priority_words :
    (0x50400000 : Word).extractLsb' 28 4 = 0x5#4 ∧ ((0x50400000 : Word).extractLsb' 22 6).toNat ≠ 0 ∧
    1028 < ((0x50040500 : Word).extractLsb' 8 14).toNat ∧ ¬ 1028 < ((0x50040400 : Word).extractLsb' 8 14).toNat ∧
    (0xD0000001 : Word).extractLsb' 28 4 = 0xD#4 ∧ (0xD0000001 : Word).extractLsb' 0 8 ≠ 0#8 ∧
    ((0xD0000000 : Word).extractLsb' 22 6).toNat = 0 ∧ ((0xD2000000 : Word).extractLsb' 22 6).toNat = 8 ∧
    (0xE2000000 : Word).extractLsb' 28 4 = 0xE#4 := by decide

/-- FrReadySetAndClearedByItsEvents, StatusesComeFromTheirCommands, CommandWritesOnlyItsRow: a command that answers from a state
that meets R24. -/
theorem witness_answered_from_fill_inv : FillInv (inFlight .crc 0 false [0xD3, 0, 0, 0x47, 0xEA]) ∧
    answer (exec (.push 0x4B) (inFlight .crc 0 false [0xD3, 0, 0, 0x47, 0xEA])) = some ⟨.frame, 0x047EA4B47EA4B003⟩ := by
  constructor
  · show 0 + 3 ≤ 5 ∧ 5 ≤ 0 + 5
    decide
  · decide

/-- HostWritesAreIdempotent. -/
theorem witness_canonical_buffer : fix1.buf.wf := by decide

/-- StepKeepsInvariant, BlockAlwaysGoesOn: a frame in flight, its length and flag beside its header, a command pending. -/
theorem witness_invariant : Inv ((inFlight .crc 1 true [0xD3, 0x04, 0x01, 0x42, 0x1F, 0x9C]).withFetchWord 32 0x20000003) ∧
    goesOn (step ((inFlight .crc 1 true [0xD3, 0x04, 0x01, 0x42, 0x1F, 0x9C]).withFetchWord 32 0x20000003)) = true := by
  refine ⟨⟨by decide, ?_, ⟨?_, ?_, ?_⟩, fun h => absurd h (by decide)⟩, by decide⟩
  · show 1 + 3 ≤ 6 ∧ 6 ≤ 1 + 5
    decide
  all_goals decide

/-- StepKeepsInvariant, BlockAlwaysGoesOn: a held frame, `fr_ready` 1. -/
theorem witness_invariant_held_frame :
    Inv { inFlight .idle 0 false [0xD3, 0, 0, 0x47, 0xEA, 0x4B] with frReady := true, frFill := 0 } := by
  refine ⟨by decide, ?_, trivial, fun _ => ⟨rfl, ?_, ?_, ?_, ?_⟩⟩
  · show 0 = 0
    rfl
  all_goals decide

end Sys2Proof.Tests
end

section
/-! SUPPORT. The step, one equation for each kind of oldest input (R11, R60, R64, R230; log 4), and the statement about the decoded
command. -/

namespace Sys2Proof.Machine

theorem step_of_no_input {s : State} (hp : s.pending = []) : step s = .next s := by
  simp only [step, hp, State.hold]

theorem step_of_rst {s : State} {rest : List HostInput} (hp : s.pending = .rst :: rest) :
    step s = .next { s with pending := rest }.powerOn := by
  simp only [step, hp]

theorem step_of_decode_instr {s : State} {c : Command} {rest : List HostInput} {i : Instr}
    (hp : s.pending = .command c :: rest) (hd : decode c = .instr i) : step s = exec i { s with pending := rest } := by
  simp only [step, hp, hd]

theorem step_of_decode_illegal {s : State} {c : Command} {rest : List HostInput} {why}
    (hp : s.pending = .command c :: rest) (hd : decode c = .illegal why) :
    step s = .next ({ s with pending := rest }.fail .illegal) := by
  simp only [step, hp, hd]

/-- Settles O6, by the step's equations for a command that decodes and for no input. -/
theorem stepPerformsDecodedCommand : Obligations.StepPerformsDecodedCommand :=
  ⟨fun _ _ _ _ hp hd => step_of_decode_instr hp hd, fun _ hp => step_of_no_input hp⟩

end Sys2Proof.Machine
end

section
/-! SUPPORT. The invariant (R24 to R27, R29): how to meet it, and what of it depends on the buffer. -/

namespace Sys2Proof.Machine

/-- An idle framer that holds no frame meets the invariant whatever the header registers and the buffer's bytes are. -/
theorem Inv.of_idle {s : State} (hwf : s.buf.wf) (hst : s.frState = .idle) (hfill : s.frFill.toNat = 0)
    (hready : s.frReady = false) : Inv s where
  bufWf := hwf
  fill := by simpa only [FillInv, hst] using hfill
  header := by simp only [HeaderInv, hst]
  ready h := by simp [hready] at h

/-- `crc_acc`, the stream and the response stand outside the invariant. -/
theorem Inv.withOutside {s : State} (h : Inv s) (c : Crc) (p : List HostInput) (r : Option Response) :
    Inv { s with crcAcc := c, pending := p, response := r } :=
  ⟨h.bufWf, h.fill, h.header, h.ready⟩

/-- While a frame is in flight, `fr_ready` is 0 (R26). -/
theorem Inv.not_ready {s : State} (h : Inv s) (hs : s.frState ≠ .idle) : s.frReady = false := by
  by_contra hr
  exact hs (h.ready (Bool.eq_true_of_not_eq_false hr)).1

/-- The buffer starts with a frame header that declares the length `len` and the reserved-bits flag `resv` (R27, R71): what
`HeaderInv` says in PAYLOAD and CRC, and `HoldsValidFrame` beside the CRC. -/
def HeaderSays (m : Memory) (len : BitVec 10) (resv : Bool) : Prop :=
  m.byte 0 = Config.preamble ∧ len = declaredLength (m.byte 1) (m.byte 2) ∧ resv = reservedFlag (m.byte 1)

theorem headerInv_iff {s : State} (hs : s.frState = .payload ∨ s.frState = .crc) :
    HeaderInv s ↔ HeaderSays s.buf s.frLen s.frResv := by
  rcases hs with hs | hs <;> simp only [HeaderInv, HeaderSays, hs]

/-- A write behind the header keeps the header. -/
theorem HeaderSays.write {m : Memory} {len : BitVec 10} {resv : Bool} (h : HeaderSays m len resv) {i : Nat}
    (hi : 3 ≤ i) (b : Byte) : HeaderSays (m.write i b) len resv := by
  unfold HeaderSays
  rwa [Memory.byte_write_ne m b (by omega : 0 ≠ i), Memory.byte_write_ne m b (by omega : 1 ≠ i),
    Memory.byte_write_ne m b (by omega : 2 ≠ i)]

theorem Inv.of_payload {s : State} (hwf : s.buf.wf) (hst : s.frState = .payload) (hready : s.frReady = false)
    (hfill : 3 ≤ s.frFill.toNat ∧ s.frFill.toNat ≤ s.frLen.toNat + 2 ∧ 1 ≤ s.frLen.toNat)
    (hhead : HeaderSays s.buf s.frLen s.frResv) : Inv s where
  bufWf := hwf
  fill := by simpa only [FillInv, hst] using hfill
  header := (headerInv_iff (.inl hst)).2 hhead
  ready h := by simp [hready] at h

theorem Inv.of_crc {s : State} (hwf : s.buf.wf) (hst : s.frState = .crc) (hready : s.frReady = false)
    (hfill : s.frLen.toNat + 3 ≤ s.frFill.toNat ∧ s.frFill.toNat ≤ s.frLen.toNat + 5)
    (hhead : HeaderSays s.buf s.frLen s.frResv) : Inv s where
  bufWf := hwf
  fill := by simpa only [FillInv, hst] using hfill
  header := (headerInv_iff (.inr hst)).2 hhead
  ready h := by simp [hready] at h

/-- The end of a frame meets the invariant: `fr_ready` is raised exactly over a CRC-valid frame (R26, R156, R158). -/
theorem completeFrame_inv {s : State} (hwf : s.buf.wf) (hhead : HeaderSays s.buf s.frLen s.frResv) :
    Inv (completeFrame s) := by
  obtain ⟨h0, hlen, hresv⟩ := hhead
  rw [completeFrame_eq]
  exact ⟨hwf, rfl, trivial, fun hcrc => ⟨rfl, h0, hlen, hresv, of_decide_eq_true hcrc⟩⟩

/-- PUSH keeps the invariant (R152 to R158). -/
theorem execPush_keeps_inv {s t : State} {d : Byte} (h : Inv s) (hp : execPush d s = .next t) : Inv t := by
  have hwf {i : Nat} (hi : i < Config.bufBytes) := Memory.write_wf h.bufWf hi d
  have hfill := h.fill
  have hhead := h.header
  obtain ⟨-, -, rfl⟩ | ⟨-, rfl, rfl⟩ | ⟨hs, rfl⟩ | ⟨hs, rfl⟩ | ⟨hs, hlt, rfl⟩ | ⟨hs, hlt, hmore, rfl⟩ | ⟨hs, hlt, -, rfl⟩ :=
    execPush_cases hp
  · exact h.withOutside _ _ _
  · exact ⟨hwf (by decide), rfl, ⟨Memory.byte_write_self .., rfl, rfl⟩, nofun⟩
  all_goals have hready := h.not_ready (by simp [hs])
  · -- LEN1: the preamble stays at index 0
    simp only [HeaderInv, hs] at hhead
    obtain ⟨hpre, hregs⟩ := hhead
    exact ⟨hwf (by decide), rfl, ⟨(Memory.byte_write_ne _ _ (by decide)).trans hpre, hregs⟩, by simp [hready]⟩
  · -- LEN2: length and flag are taken from the header, which is now complete
    simp only [HeaderInv, hs] at hhead
    have hsays : HeaderSays (s.buf.write 2 d) (declaredLength (s.buf.byte 1) d) (reservedFlag (s.buf.byte 1)) := by
      simp [HeaderSays, Memory.byte_write, hhead.1]
    by_cases hzero : declaredLength (s.buf.byte 1) d = 0
    · exact .of_crc (hwf (by decide)) (if_pos hzero) hready (by simp [hzero]) hsays
    · have hpos : 1 ≤ (declaredLength (s.buf.byte 1) d).toNat :=
        Nat.pos_of_ne_zero fun hn => hzero (BitVec.eq_of_toNat_eq hn)
      exact .of_payload (hwf (by decide)) (if_neg hzero) hready ⟨Nat.le_refl 3, Nat.add_le_add_right hpos 2, hpos⟩ hsays
  all_goals simp only [FillInv, hs] at hfill
  all_goals have hsays := ((headerInv_iff (by simp [hs])).1 hhead).write (by omega : 3 ≤ s.frFill.toNat) d
  · -- PAYLOAD: the last payload byte moves the framer on to the trailer
    by_cases hlast : s.frFill.toNat = s.frLen.toNat + 2
    · exact .of_crc (hwf hlt) (if_pos hlast) hready (by simp only [fill_succ hlt]; omega) hsays
    · exact .of_payload (hwf hlt) (if_neg hlast) hready (by simp only [fill_succ hlt]; omega) hsays
  · -- CRC, before the last trailer byte
    exact .of_crc (hwf hlt) hs hready (by simp only [fill_succ hlt]; omega) hsays
  · -- CRC, the last trailer byte
    exact completeFrame_inv (hwf hlt) hsays

/-- Every command keeps the invariant. -/
theorem exec_keeps_inv {s t : State} {i : Instr} (h : Inv s) (he : exec i s = .next t) : Inv t := by
  obtain ⟨r, rfl⟩ | ⟨-, rfl⟩ | ⟨-, c, d, rfl⟩ | ⟨-, hs, m, hm, rfl⟩ | ⟨d, rfl, hp⟩ := exec_cases he
  · exact h.withOutside _ _ _
  · exact .of_idle h.bufWf rfl rfl rfl
  · exact h.withOutside _ _ _
  · have hfill := h.fill
    simp only [FillInv, hs] at hfill
    exact .of_idle (hm h.bufWf) hs hfill rfl
  · exact execPush_keeps_inv h hp

/-- Settles O48: a step is power-on reset, a command that answers, or changes nothing the invariant speaks of. -/
theorem stepKeepsInvariant : Obligations.StepKeepsInvariant := by
  intro s t h hstep
  obtain ⟨-, rfl⟩ | ⟨rest, -, rfl⟩ | ⟨c, rest, why, -, -, rfl⟩ | ⟨c, rest, i, -, -, he⟩ := step_cases hstep
  · exact h
  · exact .of_idle Memory.wf_nil rfl rfl rfl
  · exact h.withOutside _ _ _
  · exact exec_keeps_inv (h.withOutside _ rest _) he

/-- Settles O47: after power-on the framer is idle, holds no frame, and the buffer lists no byte. -/
theorem resetMeetsInvariant : Obligations.ResetMeetsInvariant := .of_idle Memory.wf_nil rfl rfl rfl

end Sys2Proof.Machine
end

section
/-! SUPPORT. What one command writes and what it keeps (R26, R28, R32): the range-checked commands and the host writes by their
common shape, PUSH by its seven ways. -/

namespace Sys2Proof.Machine

/-- A range-checked command ends as it does in range, or answers RANGE. -/
theorem guarded_next {p : Prop} {_ : Decidable p} {s u t : State}
    (h : (if p then .next u else .next (s.fail .range) : Host.Outcome State Fault Refusal) = .next t) :
    t = u ∨ t = s.fail .range := by
  split at h <;> injection h with h
  · exact .inl h.symm
  · exact .inr h.symm

/-- A host write that answers OK has cleared `fr_ready`; one that answers RANGE or BUSY has kept it (R26, R201). -/
theorem hostWrite_next_frReady {p : Prop} {_ : Decidable p} {s t : State} {m : Memory} {st : Status} {d : Data}
    (h : (if p then .next (s.hostWrite m) else .next (s.fail .range) : Host.Outcome State Fault Refusal) = .next t)
    (hr : t.response = some ⟨st, d⟩) :
    (st = .ok ∧ t.frReady = false) ∨ ((st = .range ∨ st = .busy) ∧ t.frReady = s.frReady) := by
  obtain rfl | rfl := guarded_next h
  · by_cases hs : s.frState = .idle
    · rw [State.hostWrite_idle m hs] at hr ⊢
      cases hr
      exact .inl ⟨rfl, rfl⟩
    · rw [State.hostWrite_busy m hs] at hr ⊢
      cases hr
      exact .inr ⟨.inr rfl, rfl⟩
  · cases hr
    exact .inr ⟨.inl rfl, rfl⟩

/-- A host write writes the buffer, `fr_ready` and the response alone, and the buffer as a whole or not at all (R32). -/
theorem hostWrite_next_frame {p : Prop} {_ : Decidable p} {s t : State} {m : Memory}
    (h : (if p then .next (s.hostWrite m) else .next (s.fail .range) : Host.Outcome State Fault Refusal) = .next t) :
    t = { s with buf := t.buf, frReady := t.frReady, response := t.response } ∧ (t.buf = s.buf ∨ t.buf = m) := by
  obtain rfl | rfl := guarded_next h
  · by_cases hs : s.frState = .idle
    · rw [State.hostWrite_idle m hs]
      exact ⟨rfl, .inr rfl⟩
    · rw [State.hostWrite_busy m hs]
      exact ⟨rfl, .inl rfl⟩
  · exact ⟨rfl, .inl rfl⟩

/-- Writing a field leaves every bit outside it (R106). -/
theorem Memory.bit_writeField_outside (m : Memory) {pos len b : Nat} (v : Word) (hb : b < pos ∨ pos + len ≤ b) :
    (m.writeField pos len v).bit b = m.bit b := by
  rw [Memory.writeField, Memory.bit_writeBits, if_neg (by omega)]

/-- The end of a frame raises `fr_ready` exactly with the status FRAME, else the status is CRC_ERR (R158). -/
theorem completeFrame_frReady {s : State} {st : Status} {d : Data}
    (hr : (completeFrame s).response = some ⟨st, d⟩) :
    (st = .frame ∧ (completeFrame s).frReady = true) ∨ (st = .crcErr ∧ (completeFrame s).frReady = false) := by
  rw [completeFrame_eq] at hr ⊢
  by_cases h : s.buf.crc24q (s.frLen.toNat + 3) = s.buf.read3 (s.frLen.toNat + 3)
  · simp only [h, if_true, Option.some.injEq, Response.mk.injEq] at hr
    exact .inl ⟨hr.1.symm, decide_eq_true h⟩
  · simp only [h, if_false, Option.some.injEq, Response.mk.injEq] at hr
    exact .inr ⟨hr.1.symm, decide_eq_false h⟩

/-- The events of PUSH that move `fr_ready`: FRAME, a preamble accepted in IDLE, CRC_ERR (R26). -/
theorem execPush_frReady_iff {s t : State} {b : Byte} {st : Status} {d : Data} (h : execPush b s = .next t)
    (hr : t.response = some ⟨st, d⟩) :
    t.frReady = true ↔
      st = .frame ∨ (s.frReady = true ∧ ¬ (b = Config.preamble ∧ s.frState = .idle) ∧ st ≠ .crcErr) := by
  obtain ⟨-, hb, rfl⟩ | ⟨hs, hb, rfl⟩ | ⟨hs, rfl⟩ | ⟨hs, rfl⟩ | ⟨hs, -, rfl⟩ | ⟨hs, -, -, rfl⟩ | ⟨-, -, -, rfl⟩ :=
    execPush_cases h
  · cases hr; simp [hb]
  · cases hr; simp [hb, hs]
  · cases hr; simp [hs]
  · cases hr; simp [hs]
  · cases hr; simp [hs]
  · cases hr; simp [hs]
  · obtain ⟨rfl, hf⟩ | ⟨rfl, hf⟩ := completeFrame_frReady hr <;> rw [hf] <;> simp

/-- Settles O41, by the shape of each command: PUSH, the host writes, RESET, and the commands that leave `fr_ready`. -/
theorem frReadySetAndClearedByItsEvents : Obligations.FrReadySetAndClearedByItsEvents := by
  intro s t i st d h hr
  cases i with
  | push b => simpa [Config.preamble] using execPush_frReady_iff h hr
  | bufWr | setu | sets =>
    obtain ⟨rfl, hf⟩ | ⟨rfl | rfl, hf⟩ := hostWrite_next_frReady h hr <;> simp [hf]
  | reset => cases h; cases hr; simp
  | nop | status | crcInit | crcByte => cases h; cases hr; simp
  | bufRd | crcBuf | getu | gets | gets38 | getsm =>
    obtain rfl | rfl := guarded_next h <;> cases hr <;> simp

/-! PUSH by the framer's state (R151). -/

theorem execPush_of_idle {s : State} {d : Byte} (hs : s.frState = .idle) : execPush d s = .next (pushIdle d s) := by
  simp only [execPush, hs]

theorem execPush_of_len1 {s : State} {d : Byte} (hs : s.frState = .len1) : execPush d s = .next (pushLen1 d s) := by
  simp only [execPush, hs]

theorem execPush_of_len2 {s : State} {d : Byte} (hs : s.frState = .len2) : execPush d s = .next (pushLen2 d s) := by
  simp only [execPush, hs]

theorem execPush_of_payload {s : State} {d : Byte} (hs : s.frState = .payload) :
    execPush d s = storeAtFill d s pushPayload := by
  simp only [execPush, hs]

theorem execPush_of_crc {s : State} {d : Byte} (hs : s.frState = .crc) :
    execPush d s = storeAtFill d s pushCrc := by
  simp only [execPush, hs]

/-! PUSH and `crc_acc` (R28): every arm commutes with an update of the accumulator. -/

/-- The state with `crc_acc` replaced, the statement's `{ s with crcAcc := c }`. -/
def State.withCrcAcc (s : State) (c : Crc) : State := { s with crcAcc := c }

@[simp] theorem State.withCrcAcc_frFill (s : State) (c : Crc) : (s.withCrcAcc c).frFill = s.frFill := rfl
@[simp] theorem State.withCrcAcc_frLen (s : State) (c : Crc) : (s.withCrcAcc c).frLen = s.frLen := rfl

theorem pushIdle_withCrcAcc (d : Byte) (s : State) (c : Crc) :
    pushIdle d (s.withCrcAcc c) = (pushIdle d s).withCrcAcc c := by
  unfold pushIdle
  split <;> rfl

theorem completeFrame_withCrcAcc (s : State) (c : Crc) :
    completeFrame (s.withCrcAcc c) = (completeFrame s).withCrcAcc c := by
  simp only [completeFrame_eq, State.withCrcAcc]

theorem pushCrc_withCrcAcc (s : State) (c : Crc) : pushCrc (s.withCrcAcc c) = (pushCrc s).withCrcAcc c := by
  by_cases hmore : s.frFill.toNat < s.frLen.toNat + 6
  · simp only [pushCrc, State.withCrcAcc_frFill, State.withCrcAcc_frLen, hmore, if_true]
    rfl
  · simp only [pushCrc, State.withCrcAcc_frFill, State.withCrcAcc_frLen, hmore, if_false, completeFrame_withCrcAcc]

theorem storeAtFill_withCrcAcc {d : Byte} {s t : State} {rest : State → State} (c : Crc)
    (hrest : ∀ u : State, rest (u.withCrcAcc c) = (rest u).withCrcAcc c)
    (h : storeAtFill d s rest = .next t) : storeAtFill d (s.withCrcAcc c) rest = .next (t.withCrcAcc c) := by
  obtain ⟨hlt, rfl⟩ := storeAtFill_next h
  rw [← hrest]
  exact if_pos hlt

/-- A PUSH that answers does the same with any other value in `crc_acc`, which stays (R28). -/
theorem execPush_withCrcAcc {d : Byte} {s t : State} (c : Crc) (h : execPush d s = .next t) :
    execPush d (s.withCrcAcc c) = .next (t.withCrcAcc c) := by
  cases hs : s.frState with
  | idle =>
    rw [execPush_of_idle hs] at h
    cases h
    exact (execPush_of_idle (s := s.withCrcAcc c) hs).trans (by rw [pushIdle_withCrcAcc])
  | len1 => rw [execPush_of_len1 hs] at h; cases h; exact execPush_of_len1 (s := s.withCrcAcc c) hs
  | len2 => rw [execPush_of_len2 hs] at h; cases h; exact execPush_of_len2 (s := s.withCrcAcc c) hs
  | payload =>
    rw [execPush_of_payload hs] at h
    exact (execPush_of_payload (s := s.withCrcAcc c) hs).trans (storeAtFill_withCrcAcc c (fun _ => rfl) h)
  | crc =>
    rw [execPush_of_crc hs] at h
    exact (execPush_of_crc (s := s.withCrcAcc c) hs).trans
      (storeAtFill_withCrcAcc c (fun u => pushCrc_withCrcAcc u c) h)

theorem execPush_crcAcc {d : Byte} {s t : State} (h : execPush d s = .next t) : t.crcAcc = s.crcAcc := by
  have hself : execPush d s = .next (t.withCrcAcc s.crcAcc) := execPush_withCrcAcc s.crcAcc h
  rw [h] at hself
  injection hself with ht
  rw [ht]
  rfl

/-- Settles O39: PUSH commutes with an update of `crc_acc`, and the other commands keep it or are the generator's or RESET. -/
theorem generatorAndFramerAreIndependent : Obligations.GeneratorAndFramerAreIndependent := by
  refine ⟨fun i s t h hInit hByte hBuf hReset => ?_, fun s t d c h => execPush_withCrcAcc c h⟩
  obtain ⟨r, rfl⟩ | ⟨hi, -⟩ | ⟨hi | ⟨d, hi⟩ | ⟨n, hi⟩, -⟩ | ⟨-, -, m, -, rfl⟩ | ⟨d, -, hp⟩ := exec_cases h
  · rfl
  · exact absurd hi hReset
  · exact absurd hi hInit
  · exact absurd hi (hByte d)
  · exact absurd hi (hBuf n)
  · rfl
  · exact execPush_crcAcc hp

/-! PUSH and the write table (R32, R46): the stream stays, and a byte is stored at `fr_fill` or nowhere. -/

@[simp] theorem completeFrame_pending (s : State) : (completeFrame s).pending = s.pending := by rw [completeFrame_eq]

@[simp] theorem completeFrame_buf (s : State) : (completeFrame s).buf = s.buf := by rw [completeFrame_eq]

theorem execPush_pending {d : Byte} {s t : State} (h : execPush d s = .next t) : t.pending = s.pending := by
  obtain ⟨-, -, rfl⟩ | ⟨-, -, rfl⟩ | ⟨-, rfl⟩ | ⟨-, rfl⟩ | ⟨-, -, rfl⟩ | ⟨-, -, -, rfl⟩ | ⟨-, -, -, rfl⟩ :=
    execPush_cases h <;> simp

/-- R24 puts the store of every arm at `fr_fill`: in the header arms the index is fixed and `fr_fill` is that index. -/
theorem execPush_buf {d : Byte} {s t : State} (hfill : FillInv s) (h : execPush d s = .next t) :
    t.buf = s.buf ∨ t.buf = s.buf.write s.frFill.toNat d := by
  obtain ⟨-, -, rfl⟩ | ⟨hs, -, rfl⟩ | ⟨hs, rfl⟩ | ⟨hs, rfl⟩ | ⟨-, -, rfl⟩ | ⟨-, -, -, rfl⟩ | ⟨-, -, -, rfl⟩ :=
    execPush_cases h
  · exact .inl rfl
  all_goals right
  · simp only [FillInv, hs] at hfill; rw [hfill]
  · simp only [FillInv, hs] at hfill; rw [hfill]
  · simp only [FillInv, hs] at hfill; rw [hfill]
  · rfl
  · rfl
  · rw [completeFrame_buf]

/-- Settles O45, row by row of the write table. -/
theorem commandWritesOnlyItsRow : Obligations.CommandWritesOnlyItsRow := by
  intro s t i hfill h
  cases i with
  | nop | status | crcInit | crcByte => cases h; rfl
  | bufRd | getu | gets | gets38 | getsm | crcBuf => obtain rfl | rfl := guarded_next h <;> rfl
  | reset => cases h; exact ⟨rfl, rfl⟩
  | push d =>
    refine ⟨execPush_crcAcc h, execPush_pending h, fun a ha => ?_⟩
    obtain hb | hb := execPush_buf hfill h <;> rw [hb]
    exact Memory.byte_write_ne _ d ha
  | bufWr idx d =>
    obtain ⟨hframe, hb⟩ := hostWrite_next_frame h
    refine ⟨hframe, fun a ha => ?_⟩
    obtain hb | hb := hb <;> rw [hb]
    exact Memory.byte_write_ne _ d ha
  | setu pos len v | sets pos len v =>
    obtain ⟨hframe, hb⟩ := hostWrite_next_frame h
    refine ⟨hframe, fun b hout => ?_⟩
    obtain hb | hb := hb <;> rw [hb]
    exact Memory.bit_writeField_outside _ v hout

end Sys2Proof.Machine
end

section
/-! SUPPORT. The byte commands and the byte view (R41 to R43, R56): what BUF_WR, BUF_RD and GETU answer in range, what a sequence of
writes leaves in the buffer, and a byte-aligned field as the bytes it spans. -/

namespace Sys2Proof.Machine

/-! The commands in range, and the host write in IDLE. -/

theorem exec_bufWr_of_idle {s : State} {k : Nat} (d : Byte) (hs : s.frState = .idle) (hk : k ≤ 1028) :
    exec (.bufWr k d) s =
      .next { s with buf := s.buf.write k d, frReady := false, response := some ⟨.ok, 0#64⟩ } := by
  rw [← State.hostWrite_idle (s.buf.write k d) hs]
  exact if_pos (Nat.lt_succ_of_le hk)

theorem exec_bufRd_of_le {k : Nat} (s : State) (hk : k ≤ 1028) :
    exec (.bufRd k) s = .next (answered s .ok ((s.buf.byte k).setWidth 64)) :=
  if_pos (Nat.lt_succ_of_le hk)

theorem exec_getu_of_inRange {pos len : Nat} (s : State) (h : FieldInRange pos len) :
    exec (.getu pos len) s = .next (answered s .ok (zext64 (s.buf.getu pos len))) :=
  if_pos h

theorem zext64_toNat (d : Byte) : zext64 d.toNat = d.setWidth 64 := BitVec.ofNat_toNat 64 d

/-! A sequence of BUF_WR commands: the last write of an index wins (R56). -/

/-- What byte `i` reads as after `writes`, issued in the order of the list, if it read as `b` before. -/
def byteAfter (writes : List (Nat × Byte)) (i : Nat) (b : Byte) : Byte :=
  (writes.reverse.find? fun w => w.1 == i).elim b fun w => w.2

/-- The first write is what the later ones find: it counts for its index unless one of them writes it again. -/
theorem byteAfter_cons (w : Nat × Byte) (writes : List (Nat × Byte)) (i : Nat) (b : Byte) :
    byteAfter (w :: writes) i b = byteAfter writes i (if i = w.1 then w.2 else b) := by
  simp only [byteAfter, List.reverse_cons, List.find?_append]
  cases writes.reverse.find? fun w => w.1 == i with
  | some later => rfl
  | none =>
    by_cases hi : i = w.1
    · simp [hi]
    · simp [hi, Ne.symm hi]

theorem perform_bufWrs {s : State} {writes : List (Nat × Byte)} (hs : s.frState = .idle)
    (hw : ∀ w ∈ writes, w.1 ≤ 1028) :
    ∃ t, perform (writes.map fun w => .bufWr w.1 w.2) s = .next t ∧
      ∀ i, t.buf.byte i = byteAfter writes i (s.buf.byte i) := by
  induction writes generalizing s with
  | nil => exact ⟨s, rfl, fun _ => rfl⟩
  | cons w writes ih =>
    obtain ⟨hhead, htail⟩ := List.forall_mem_cons.1 hw
    simp only [List.map_cons, perform, exec_bufWr_of_idle w.2 hs hhead, byteAfter_cons, ← Memory.byte_write]
    exact ih hs htail

/-- Settles O13, by induction on the writes: each one is what the later ones find in the buffer. -/
theorem readReturnsLastByteWritten : Obligations.ReadReturnsLastByteWritten := by
  refine ⟨fun i hi => exec_bufRd_of_le State.reset hi, fun s writes i hs hw hi => ?_⟩
  obtain ⟨t, ht, hbyte⟩ := perform_bufWrs hs hw
  refine ⟨t, ht, ?_⟩
  rw [exec_bufRd_of_le t hi, hbyte]
  rfl

/-! The byte view through the bit view (R41 to R43). -/

/-- Bit `8k + 7 − j` of the bit view is bit `j` of byte `k` (R41). -/
theorem Memory.bit_of_byte (m : Memory) (k : Nat) {j : Nat} (hj : j < 8) :
    m.bit (8 * k + (7 - j)) = (m.byte k).getLsbD j := by
  have hdiv : (8 * k + (7 - j)) / 8 = k := by omega
  have hmod : 7 - (8 * k + (7 - j)) % 8 = j := by omega
  rw [Memory.bit, hdiv, hmod]

theorem Memory.getu_byte (m : Memory) (k : Nat) : m.getu (8 * k) 8 = (m.byte k).toNat := by
  refine Nat.eq_of_testBit_eq fun j => ?_
  rw [Memory.testBit_getu, BitVec.testBit_toNat]
  by_cases hj : j < 8
  · simpa [hj] using m.bit_of_byte k hj
  · simp [hj, BitVec.getLsbD_of_ge, Nat.le_of_not_lt hj]

/-- A field that a whole byte follows, read on over that byte: the byte is appended below (R42). -/
theorem Memory.getu_append_byte {m : Memory} {pos n k : Nat} {v : BitVec n} (hv : m.getu pos n = v.toNat)
    (hk : pos + n = 8 * k) : m.getu pos (n + 8) = (v ++ m.byte k).toNat := by
  rw [Memory.getu_append, hv, hk, Memory.getu_byte, BitVec.toNat_append,
    ← Nat.shiftLeft_add_eq_or_of_lt (m.byte k).isLt, Nat.shiftLeft_eq]

/-- Settles O15: a byte-aligned field is read byte by byte, and BUF_WR stores the byte that the field then is. -/
theorem byteViewAndBitViewAgree : Obligations.ByteViewAndBitViewAgree := by
  refine ⟨fun m k => ?_, fun s k d hs hk => ⟨_, exec_bufWr_of_idle d hs hk, ?_⟩⟩
  · have h8 := m.getu_byte k
    have h16 := Memory.getu_append_byte (k := k + 1) h8 rfl
    exact ⟨h8, h16, Memory.getu_append_byte (k := k + 2) h16 rfl⟩
  · have hrange : FieldInRange (8 * k) 8 := ⟨by decide, by decide, by simp only [Config.bufBits]; omega⟩
    rw [exec_getu_of_inRange _ hrange, Memory.getu_byte, Memory.byte_write_self, zext64_toNat]

end Sys2Proof.Machine
end

section
/-! SUPPORT. When a command stops (R40, R49; log 7): PUSH alone, by the index of its store. -/

namespace Sys2Proof.Machine

theorem storeAtFill_fault_iff {d : Byte} {s : State} {rest : State → State} {r : Fault} :
    storeAtFill d s rest = .fault r ↔ 1028 < s.frFill.toNat ∧ r = .storeOutsideBuffer s.frFill.toNat := by
  by_cases hlt : s.frFill.toNat < Config.bufBytes
  · rw [storeAtFill, if_pos hlt]
    exact ⟨nofun, fun ⟨hge, _⟩ => absurd hlt (Nat.not_lt.2 hge)⟩
  · rw [storeAtFill, if_neg hlt]
    exact ⟨fun h => ⟨Nat.not_lt.1 hlt, (Host.Outcome.fault.inj h).symm⟩, fun ⟨_, hr⟩ => hr ▸ rfl⟩

/-- PUSH stores at `fr_fill` in PAYLOAD and CRC alone; the other arms store at a fixed index or not at all (R152 to R156). -/
theorem execPush_fault_iff {d : Byte} {s : State} {r : Fault} :
    execPush d s = .fault r ↔ (s.frState = .payload ∨ s.frState = .crc) ∧ 1028 < s.frFill.toNat ∧
      r = .storeOutsideBuffer s.frFill.toNat := by
  cases hs : s.frState with
  | idle => simp [execPush_of_idle hs]
  | len1 => simp [execPush_of_len1 hs]
  | len2 => simp [execPush_of_len2 hs]
  | payload => simp [execPush_of_payload hs, storeAtFill_fault_iff]
  | crc => simp [execPush_of_crc hs, storeAtFill_fault_iff]

/-- A range-checked command does not stop. -/
theorem guarded_ne_fault {p : Prop} {_ : Decidable p} {u v : State} {r : Fault} :
    (if p then .next u else .next v : Host.Outcome State Fault Refusal) ≠ .fault r := by
  split <;> nofun

theorem push_of_exec_fault {i : Instr} {s : State} {r : Fault} (h : exec i s = .fault r) : ∃ d, i = .push d := by
  cases i with
  | push d => exact ⟨d, rfl⟩
  | nop | reset | status | crcInit | crcByte => cases h
  | bufRd | bufWr | crcBuf | getu | gets | gets38 | getsm | setu | sets => exact absurd h guarded_ne_fault

/-- Settles O35: only a PUSH stops, and it stops by its store alone. -/
theorem onlyStoreOutsideBufferFaults : Obligations.OnlyStoreOutsideBufferFaults := by
  refine fun i s r => ⟨fun h => ?_, fun ⟨⟨d, hi⟩, hstop⟩ => ?_⟩
  · obtain ⟨d, rfl⟩ := push_of_exec_fault h
    exact ⟨⟨d, rfl⟩, execPush_fault_iff.1 h⟩
  · subst hi
    exact execPush_fault_iff.2 hstop

end Sys2Proof.Machine
end

section
/-! SUPPORT. Host writes repeated (R48): in a canonical buffer, writing what already stands there is no change. -/

namespace Sys2Proof.Machine

theorem Memory.write_write {m : Memory} (hm : m.wf) (i : Nat) (b : Byte) :
    (m.write i b).write i b = m.write i b := by
  obtain ⟨hsorted, -⟩ := hm
  exact Memory.write_eq_self (Memory.write_sorted hsorted i b) (by simp [Memory.read_write])

theorem setByteBit_eq_self (b : Byte) {j : Nat} (hj : j < 8) : setByteBit b j (b.getLsbD j) = b := by
  refine BitVec.eq_of_getLsbD_eq fun k hk => ?_
  rw [setByteBit_getLsbD b j k _ hj hk]
  split
  · next hkj => rw [hkj]
  · rfl

/-- Setting a bit to its value is no change where the bit's byte is listed; elsewhere it would list the byte (log 5). -/
theorem Memory.setBit_eq_self {m : Memory} (hm : m.Pairwise (fun x y => x.1 < y.1)) {i : Nat}
    (hlisted : (m.read (i / 8)).isSome) : m.setBit i (m.bit i) = m := by
  obtain ⟨b, hb⟩ := Option.isSome_iff_exists.1 hlisted
  have hbyte : m.byte (i / 8) = b := by simp [Memory.byte, hb]
  rw [Memory.setBit, Memory.bit, setByteBit_eq_self _ (by omega)]
  exact Memory.write_eq_self hm (by rw [hb, hbyte])

/-- The writing loop lists the byte of every bit it writes (R106). -/
theorem Memory.listed_writeBits (m : Memory) (pos len : Nat) (v : Word) {j k : Nat} (hj : j < k) :
    ((m.writeBits pos len v k).read ((pos + j) / 8)).isSome := by
  induction k with
  | zero => omega
  | succ k ih =>
    rw [Memory.writeBits, Memory.setBit, Memory.read_write]
    split
    · rfl
    · next hbyte => exact ih (Nat.lt_of_le_of_ne (Nat.le_of_lt_succ hj) (by rintro rfl; exact hbyte rfl))

theorem Memory.writeBits_eq_self {m : Memory} (hm : m.Pairwise (fun x y => x.1 < y.1)) {pos len : Nat} {v : Word}
    {k : Nat} (hbits : ∀ j, j < k → (m.read ((pos + j) / 8)).isSome ∧ m.bit (pos + j) = v.getLsbD (len - 1 - j)) :
    m.writeBits pos len v k = m := by
  induction k with
  | zero => rfl
  | succ k ih =>
    obtain ⟨hlisted, hbit⟩ := hbits k (Nat.lt_succ_self k)
    rw [Memory.writeBits, ih fun j hj => hbits j (Nat.lt_succ_of_lt hj), ← hbit]
    exact Memory.setBit_eq_self hm hlisted

theorem Memory.writeBits_sorted {m : Memory} (hm : m.Pairwise (fun x y => x.1 < y.1)) (pos len : Nat) (v : Word)
    (k : Nat) : (m.writeBits pos len v k).Pairwise (fun x y => x.1 < y.1) := by
  induction k with
  | zero => exact hm
  | succ k ih => exact Memory.write_sorted ih _ _

theorem Memory.writeField_writeField {m : Memory} (hm : m.wf) (pos len : Nat) (v : Word) :
    (m.writeField pos len v).writeField pos len v = m.writeField pos len v := by
  obtain ⟨hsorted, -⟩ := hm
  refine Memory.writeBits_eq_self (Memory.writeBits_sorted hsorted pos len v len) fun j hj => ?_
  refine ⟨Memory.listed_writeBits m pos len v hj, ?_⟩
  rw [Memory.bit_writeBits, if_pos (by omega), Nat.add_sub_cancel_left]

/-- A host write whose update of the buffer is idempotent: the second answers what the first did, OK or BUSY (R48, R201). -/
theorem State.hostWrite_hostWrite (s : State) {f : Memory → Memory} (hf : f (f s.buf) = f s.buf) :
    (s.hostWrite (f s.buf)).hostWrite (f (s.hostWrite (f s.buf)).buf) = s.hostWrite (f s.buf) := by
  by_cases hs : s.frState = .idle
  · rw [State.hostWrite_idle _ ((s.hostWrite_frState _).trans hs), State.hostWrite_idle _ hs, hf]
  · rw [State.hostWrite_busy _ (by rwa [State.hostWrite_frState]), State.hostWrite_busy _ hs]

/-- A range-checked host write whose update of the buffer is idempotent leaves, issued twice, the state of one. -/
theorem guarded_hostWrite_idempotent {p : Prop} {_ : Decidable p} {exe : State → Host.Outcome State Fault Refusal}
    {s : State} (f : Memory → Memory)
    (hexe : ∀ u, exe u = if p then .next (u.hostWrite (f u.buf)) else .next (u.fail .range))
    (hf : f (f s.buf) = f s.buf) : ∃ t, exe s = .next t ∧ exe t = .next t := by
  by_cases hp : p
  · simp only [hexe, if_pos hp]
    exact ⟨_, rfl, by rw [State.hostWrite_hostWrite s hf]⟩
  · simp only [hexe, if_neg hp]
    exact ⟨_, rfl, rfl⟩

/-- Settles O46: each of the three writes is range-checked and updates the buffer idempotently. -/
theorem hostWritesAreIdempotent : Obligations.HostWritesAreIdempotent := by
  rintro s i hwf (⟨k, d, rfl⟩ | ⟨pos, len, v, rfl⟩ | ⟨pos, len, v, rfl⟩)
  · exact guarded_hostWrite_idempotent (·.write k d) (fun _ => rfl) (Memory.write_write hwf k d)
  all_goals
    exact guarded_hostWrite_idempotent (·.writeField pos len v) (fun _ => rfl)
      (Memory.writeField_writeField hwf pos len v)

end Sys2Proof.Machine
end

section
/-! SUPPORT. The decoder and the assembler (R61, R63 to R66, R69, R75): which fields a row reads, the two words of a decoded command,
and the rows of the opcode table as masks and matches. -/

namespace Sys2Proof

/-- The words of every instruction fit its row (R63, R64, R66). -/
theorem encodedInItsRow (i : Instr) : Laws.EncodedInItsRow.Statement i := by
  cases i with
  | nop => exact Laws.EncodedInItsRow.nop
  | reset => exact Laws.EncodedInItsRow.reset
  | push d => exact Laws.EncodedInItsRow.push d
  | status => exact Laws.EncodedInItsRow.status
  | bufRd idx => exact Laws.EncodedInItsRow.bufRd idx
  | bufWr idx d => exact Laws.EncodedInItsRow.bufWr idx d
  | crcInit => exact Laws.EncodedInItsRow.crcInit
  | crcByte d => exact Laws.EncodedInItsRow.crcByte d
  | crcBuf n => exact Laws.EncodedInItsRow.crcBuf n
  | getu pos len => exact Laws.EncodedInItsRow.getu pos len
  | gets pos len => exact Laws.EncodedInItsRow.gets pos len
  | gets38 pos => exact Laws.EncodedInItsRow.gets38 pos
  | getsm pos len => exact Laws.EncodedInItsRow.getsm pos len
  | setu pos len arg => exact Laws.EncodedInItsRow.setu pos len arg
  | sets pos len arg => exact Laws.EncodedInItsRow.sets pos len arg

/-- Whether the row reads the field LEN (R63). -/
def Opcode.readsLen : Opcode → Bool
  | .getu | .gets | .getsm | .setu | .sets => true
  | .nop | .reset | .push | .status | .bufRd | .bufWr | .crcInit | .crcByte | .crcBuf | .gets38 => false

/-- Whether the row reads the field F14 (R63). -/
def Opcode.readsF14 : Opcode → Bool
  | .bufRd | .bufWr | .crcBuf | .getu | .gets | .gets38 | .getsm | .setu | .sets => true
  | .nop | .reset | .push | .status | .crcInit | .crcByte => false

/-- Whether the row reads the field DATA (R63). -/
def Opcode.readsData : Opcode → Bool
  | .push | .bufWr | .crcByte => true
  | .nop | .reset | .status | .bufRd | .crcInit | .crcBuf | .getu | .gets | .gets38 | .getsm | .setu | .sets => false

/-- The words that the assembler writes for a command of the row `op`: the fields the row reads, and 0 for the others. -/
theorem encode_operands (op : Opcode) (c : Command) :
    encode (op.operands c) =
      ⟨assemble op (if op.readsLen then lenField c.cmd else 0) (if op.readsF14 then f14Field c.cmd else 0)
          (if op.readsData then dataField c.cmd else 0),
        if op.readsArg then c.arg else 0#32⟩ := by
  cases op <;> rfl

theorem fitsF14_f14Field (w : Word) : FitsF14 (f14Field w) := (w.extractLsb' 8 14).isLt

theorem fitsLen_lenField (w : Word) : FitsLen (lenField w) := (w.extractLsb' 22 6).isLt

theorem wf_operands (op : Opcode) (c : Command) : (op.operands c).wf = true := by
  have hf14 := decide_eq_true (fitsF14_f14Field c.cmd)
  have hlen := decide_eq_true (fitsLen_lenField c.cmd)
  cases op with
  | nop | reset | push | status | crcInit | crcByte => rfl
  | bufRd | bufWr | crcBuf | gets38 => exact hf14
  | getu | gets | getsm | setu | sets => exact Bool.and_eq_true_iff.2 ⟨hf14, hlen⟩

/-- The operands of a well-formed command are read back from its own words (R61). -/
theorem operands_encode {i : Instr} (h : i.wf = true) : i.opcode.operands (encode i) = i := by
  cases i with
  | nop | reset | status | crcInit => rfl
  | push | crcByte => simp only [Instr.opcode, Opcode.operands, encode, dataField_assemble]
  | bufRd | bufWr | crcBuf | gets38 =>
    have hidx := Nat.mod_eq_of_lt (of_decide_eq_true h)
    simp only [Instr.opcode, Opcode.operands, encode, dataField_assemble, f14Field_assemble, hidx]
  | getu | gets | getsm | setu | sets =>
    obtain ⟨hpos, hlen⟩ := Bool.and_eq_true_iff.1 h
    have hpos := Nat.mod_eq_of_lt (of_decide_eq_true hpos)
    have hlen := Nat.mod_eq_of_lt (of_decide_eq_true hlen)
    simp only [Instr.opcode, Opcode.operands, encode, f14Field_assemble, lenField_assemble, hpos, hlen]

/-- Settles O2: the words of a command fit its row, so the decoder takes the row's operands from them. -/
theorem decodeOfEncode : Obligations.DecodeOfEncode := by
  intro i hwf
  obtain ⟨hop, hmbz, -⟩ := encodedInItsRow i
  rw [decode_of_opcode hop, if_pos hmbz, operands_encode hwf]

/-! From words to a command and back. -/

/-- What `decode_cases` says of a command that decodes: its word has an opcode's OP and that row's must-be-zero bits clear. -/
theorem decode_eq_instr_iff {c : Command} {i : Instr} :
    decode c = .instr i ↔ ∃ op : Opcode, opField c.cmd = op.code ∧ c.cmd &&& op.mbz = 0#32 ∧ op.operands c = i := by
  constructor
  · intro h
    obtain ⟨-, hd⟩ | ⟨op, hop, ⟨hmbz, hd⟩ | ⟨-, hd⟩⟩ := decode_cases c <;> rw [hd] at h
    · cases h
    · exact ⟨op, hop, hmbz, Decoded.instr.inj h⟩
    · cases h
  · rintro ⟨op, hop, hmbz, rfl⟩
    rw [decode_of_opcode hop, if_pos hmbz]

/-- A word is what the assembler puts together from its own fields (R61). -/
theorem assemble_fields {w : Word} {op : Opcode} (hop : opField w = op.code) :
    assemble op (lenField w) (f14Field w) (dataField w) = w := by
  rw [assemble, ← hop, lenField, f14Field, BitVec.ofNat_toNat, BitVec.ofNat_toNat, BitVec.setWidth_eq, BitVec.setWidth_eq]
  exact (cmd_eq_fields w).symm

/-- A field that a mask covers is 0 in a word that is clear under the mask. -/
theorem field_eq_zero_of_masked {w m : Word} {start len : Nat} (hw : w &&& m = 0#32)
    (hm : m.extractLsb' start len = BitVec.allOnes len) : w.extractLsb' start len = 0#len := by
  rw [← BitVec.and_allOnes (x := w.extractLsb' start len), ← hm, ← BitVec.extractLsb'_and, hw]
  exact BitVec.extractLsb'_zero

/-! The must-be-zero mask of a row covers each field that the row does not read (R63, R64). -/

theorem Opcode.mbz_covers_len {op : Opcode} (h : op.readsLen = false) : op.mbz.extractLsb' 22 6 = BitVec.allOnes 6 := by
  revert h
  cases op <;> decide

theorem Opcode.mbz_covers_f14 {op : Opcode} (h : op.readsF14 = false) : op.mbz.extractLsb' 8 14 = BitVec.allOnes 14 := by
  revert h
  cases op <;> decide

theorem Opcode.mbz_covers_data {op : Opcode} (h : op.readsData = false) : op.mbz.extractLsb' 0 8 = BitVec.allOnes 8 := by
  revert h
  cases op <;> decide

/-- The assembler writes back the command word whose operands the decoder took (R61, R69). -/
theorem encode_operands_cmd {op : Opcode} {c : Command} (hop : opField c.cmd = op.code) (hmbz : c.cmd &&& op.mbz = 0#32) :
    (encode (op.operands c)).cmd = c.cmd := by
  have hlen : (if op.readsLen then lenField c.cmd else 0) = lenField c.cmd := by
    split
    · rfl
    · next h => simp [lenField, field_eq_zero_of_masked hmbz (Opcode.mbz_covers_len (Bool.eq_false_of_not_eq_true h))]
  have hf14 : (if op.readsF14 then f14Field c.cmd else 0) = f14Field c.cmd := by
    split
    · rfl
    · next h => simp [f14Field, field_eq_zero_of_masked hmbz (Opcode.mbz_covers_f14 (Bool.eq_false_of_not_eq_true h))]
  have hdata : (if op.readsData then dataField c.cmd else 0) = dataField c.cmd := by
    split
    · rfl
    · next h => simp [dataField, field_eq_zero_of_masked hmbz (Opcode.mbz_covers_data (Bool.eq_false_of_not_eq_true h))]
  rw [encode_operands, hlen, hf14, hdata]
  exact assemble_fields hop

theorem Opcode.readsArg_iff (op : Opcode) : op.readsArg = true ↔ op.code = 0xD#4 ∨ op.code = 0xE#4 := by
  cases op <;> decide

/-- Settles O3: a decoded command's fields are the ones its row reads, and the others are 0 in its word. -/
theorem encodeOfDecode : Obligations.EncodeOfDecode := by
  intro c i h
  obtain ⟨op, hop, hmbz, rfl⟩ := decode_eq_instr_iff.1 h
  refine ⟨wf_operands op c, encode_operands_cmd hop hmbz, ?_⟩
  rw [encode_operands, if_congr op.readsArg_iff rfl rfl, ← hop, opField]

/-- Two commands with the same word decode alike where no row that reads the argument word is in play (R66). -/
theorem decode_congr_arg {cmd : Word} (hsetu : opField cmd ≠ 0xD#4) (hsets : opField cmd ≠ 0xE#4) (a b : Word) :
    decode ⟨cmd, a⟩ = decode ⟨cmd, b⟩ := by
  cases hop : Opcode.ofCode (opField cmd) with
  | none => simp only [decode, hop]
  | some op =>
    have hcode := (Opcode.code_of_ofCode hop).symm
    have harg : op.operands ⟨cmd, a⟩ = op.operands ⟨cmd, b⟩ := by
      cases op with
      | setu => exact absurd hcode hsetu
      | sets => exact absurd hcode hsets
      | _ => rfl
    rw [decode_of_opcode (c := ⟨cmd, a⟩) hcode, decode_of_opcode (c := ⟨cmd, b⟩) hcode, harg]

/-- Settles O5: the step sees of a command what the decoder makes of it. -/
theorem argumentWordIgnored : Obligations.ArgumentWordIgnored := by
  intro cmd a b s rest hsetu hsets
  simp only [Machine.step, decode_congr_arg hsetu hsets a b]

/-! The rows of the opcode table: the mask is `0xF0000000 | MBZ(OP)` and the match `OP << 28` (R75). -/

/-- The mask of a row. -/
def Opcode.tableMask (op : Opcode) : Word := 0xF0000000#32 ||| op.mbz

/-- The match of a row. -/
def Opcode.tableMatch (op : Opcode) : Word := op.code ++ 0#28

theorem and_opMask (w : Word) : w &&& 0xF0000000#32 = opField w ++ 0#28 := by
  refine (cmd_and w 0xF#4 0#6 0#14 0#8).trans ?_
  simp only [opField, BitVec.and_zero]
  generalize w.extractLsb' 28 4 = v
  revert v
  decide

/-- The bits of a row's match lie in OP, and the row's must-be-zero bits do not (R63). -/
theorem Opcode.tableMatch_and (op : Opcode) :
    op.tableMatch &&& op.mbz = 0#32 ∧ op.tableMask &&& op.mbz = op.mbz ∧
      op.tableMask &&& 0xF0000000#32 = 0xF0000000#32 ∧ op.tableMatch &&& 0xF0000000#32 = op.tableMatch := by
  cases op <;> decide

/-- A word fits a row of the table exactly if it has the row's opcode and the row's must-be-zero bits clear (R75). -/
theorem fits_row_iff (w : Word) (op : Opcode) :
    w &&& op.tableMask = op.tableMatch ↔ opField w = op.code ∧ w &&& op.mbz = 0#32 := by
  obtain ⟨hmatchMbz, hmaskMbz, hmaskOp, hmatchOp⟩ := op.tableMatch_and
  constructor
  · intro h
    have hcode : opField w ++ 0#28 = op.code ++ 0#28 := by
      rw [← and_opMask, ← hmaskOp, ← BitVec.and_assoc, h, hmatchOp, Opcode.tableMatch]
    exact ⟨(BitVec.append_left_inj _).1 hcode, by rw [← hmaskMbz, ← BitVec.and_assoc, h, hmatchMbz]⟩
  · rintro ⟨hop, hmbz⟩
    have hmask : w &&& op.tableMask = w &&& 0xF0000000#32 ||| w &&& op.mbz := BitVec.and_or_distrib_left
    rw [hmask, and_opMask, hop, hmbz, BitVec.or_zero, Opcode.tableMatch]

theorem exists_decode_iff_fits (c : Command) :
    (∃ i, decode c = .instr i) ↔ ∃ op : Opcode, c.cmd &&& op.tableMask = op.tableMatch := by
  simp only [decode_eq_instr_iff, fits_row_iff]
  exact ⟨fun ⟨_, op, hop, hmbz, _⟩ => ⟨op, hop, hmbz⟩, fun ⟨op, hop, hmbz⟩ => ⟨_, op, hop, hmbz, rfl⟩⟩

/-- A row whose mask covers the whole word has its match as the only word (R64). -/
theorem exists_decode_iff_of_opcode {c : Command} {op : Opcode} (hop : opField c.cmd = op.code) :
    (∃ i, decode c = .instr i) ↔ c.cmd &&& op.tableMask = op.tableMatch := by
  rw [decode_of_opcode hop, fits_row_iff]
  by_cases h : c.cmd &&& op.mbz = 0#32 <;> simp [h, hop]

/-- The masks and matches of the table, row by row in the order of their codes. -/
def opcodeTable : List (Word × Word) :=
  [.nop, .reset, .push, .status, .bufRd, .bufWr, .crcInit, .crcByte, .crcBuf, .getu, .gets, .gets38, .getsm, .setu, .sets].map
    fun op : Opcode => (op.tableMask, op.tableMatch)

theorem exists_opcodeTable_iff (w : Word) :
    (∃ row ∈ opcodeTable, w &&& row.1 = row.2) ↔ ∃ op : Opcode, w &&& op.tableMask = op.tableMatch := by
  refine ⟨fun ⟨row, hrow, h⟩ => ?_, fun ⟨op, h⟩ => ⟨_, List.mem_map.2 ⟨op, ?_, rfl⟩, h⟩⟩
  · obtain ⟨op, -, rfl⟩ := List.mem_map.1 hrow
    exact ⟨op, h⟩
  · cases op <;> decide

namespace Machine

/-- A command that does not decode is answered ILLEGAL (R64, R65, R202). -/
theorem answers_illegal {c : Command} (hd : ¬ ∃ i, decode c = .instr i) (s : State) :
    Answers s c (answered s .illegal 0#64) := by
  intro rest
  cases h : decode c with
  | instr i => exact absurd ⟨i, h⟩ hd
  | illegal why => exact step_of_decode_illegal rfl h

/-- Settles O4: the rows of the table are the opcodes' masks and matches, and a word decodes exactly if it fits one. -/
theorem wordsOutsideTheTableAreIllegal : Obligations.WordsOutsideTheTableAreIllegal := by
  have hfits (c : Command) : (∃ row ∈ opcodeTable, c.cmd &&& row.1 = row.2) ↔ ∃ i, decode c = .instr i :=
    (exists_opcodeTable_iff c.cmd).trans (exists_decode_iff_fits c).symm
  refine ⟨fun c s h => answers_illegal (fun hd => h ((hfits c).2 hd)) s, fun c h => (hfits c).1 h, fun c v hv hop => ?_⟩
  have hone {op : Opcode} (hcode : opField c.cmd = op.code) (hmask : op.tableMask = BitVec.allOnes 32) :
      (∃ i, decode c = .instr i) ↔ c.cmd = op.code ++ 0#28 := by
    rw [exists_decode_iff_of_opcode hcode, hmask, BitVec.and_allOnes, Opcode.tableMatch]
  simp only [List.mem_cons, List.not_mem_nil, or_false] at hv
  obtain rfl | rfl | rfl | rfl := hv
  · exact hone (op := .nop) hop (by decide)
  · exact hone (op := .reset) hop (by decide)
  · exact hone (op := .status) hop (by decide)
  · exact hone (op := .crcInit) hop (by decide)

end Machine

/-- Settles O1, by running the decoder on the fifteen words. -/
theorem specWordsDecode : Obligations.SpecWordsDecode := by
  unfold Obligations.SpecWordsDecode
  decide

end Sys2Proof
end

section
/-! SUPPORT. The statuses (R68, R201): what PUSH and the host writes may answer. -/

namespace Sys2Proof.Machine

theorem completeFrame_status (s : State) :
    ∃ st d, (completeFrame s).response = some ⟨st, d⟩ ∧ (st = .frame ∨ st = .crcErr) := by
  rw [completeFrame_eq]
  refine ⟨_, _, rfl, ?_⟩
  split
  · exact .inl rfl
  · exact .inr rfl

theorem execPush_status {b : Byte} {s t : State} (h : execPush b s = .next t) :
    ∃ st d, t.response = some ⟨st, d⟩ ∧ (st = .ok ∨ st = .frame ∨ st = .crcErr) := by
  obtain ⟨-, -, rfl⟩ | ⟨-, -, rfl⟩ | ⟨-, rfl⟩ | ⟨-, rfl⟩ | ⟨-, -, rfl⟩ | ⟨-, -, -, rfl⟩ | ⟨-, -, -, rfl⟩ :=
    execPush_cases h
  case' inr.inr.inr.inr.inr.inr =>
    obtain ⟨st, d, hr, hst⟩ := completeFrame_status { s with buf := s.buf.write s.frFill.toNat b, frFill := s.frFill + 1 }
    exact ⟨st, d, hr, .inr hst⟩
  all_goals exact ⟨_, _, rfl, .inl rfl⟩

/-- A host write answers OK, RANGE, or BUSY while a frame is in flight (R201, R204). -/
theorem hostWrite_next_status {p : Prop} {_ : Decidable p} {s t : State} {m : Memory}
    (h : (if p then .next (s.hostWrite m) else .next (s.fail .range) : Host.Outcome State Fault Refusal) = .next t) :
    ∃ st d, t.response = some ⟨st, d⟩ ∧ (st = .ok ∨ st = .range ∨ st = .busy ∧ s.frState ≠ .idle) := by
  obtain rfl | rfl := guarded_next h
  · by_cases hs : s.frState = .idle
    · rw [State.hostWrite_idle m hs]
      exact ⟨_, _, rfl, .inl rfl⟩
    · rw [State.hostWrite_busy m hs]
      exact ⟨_, _, rfl, .inr (.inr ⟨rfl, hs⟩)⟩
  · exact ⟨_, _, rfl, .inr (.inl rfl)⟩

/-- Settles O42, by the shape of each command: unchecked, range-checked, host write, PUSH. -/
theorem statusesComeFromTheirCommands : Obligations.StatusesComeFromTheirCommands := by
  intro s t i h
  cases i with
  | nop | reset | status | crcInit | crcByte =>
    cases h
    exact ⟨.ok, _, rfl, by simp⟩
  | bufRd | crcBuf | getu | gets | gets38 | getsm =>
    obtain rfl | rfl := guarded_next h
    · exact ⟨.ok, _, rfl, by simp⟩
    · exact ⟨.range, _, rfl, by simp⟩
  | bufWr | setu | sets =>
    obtain ⟨st, d, hr, rfl | rfl | ⟨rfl, hs⟩⟩ := hostWrite_next_status h
    · exact ⟨.ok, d, hr, by simp⟩
    · exact ⟨.range, d, hr, by simp⟩
    · exact ⟨.busy, d, hr, by simp [hs]⟩
  | push b =>
    obtain ⟨st, d, hr, rfl | rfl | rfl⟩ := execPush_status h <;> exact ⟨_, d, hr, by simp⟩

end Sys2Proof.Machine
end

section
/-! SUPPORT. Fields inside one byte of the bit view (R41, R100), and the declared length (R71). -/

namespace Sys2Proof.Machine

/-- A field that lies in byte `k`, with `lo` bits of the byte below it. -/
theorem Memory.getu_within_byte (m : Memory) (k : Nat) {i n lo : Nat} (h : i + n + lo = 8) :
    m.getu (8 * k + i) n = (m.byte k).toNat / 2 ^ lo % 2 ^ n := by
  refine Nat.eq_of_testBit_eq fun j => ?_
  rw [Memory.testBit_getu, Nat.testBit_mod_two_pow, Nat.testBit_div_two_pow, BitVec.testBit_toNat]
  by_cases hj : j < n
  · have hbit := m.bit_of_byte k (show j + lo < 8 by omega)
    rw [show 8 * k + (7 - (j + lo)) = 8 * k + i + (n - 1 - j) by omega] at hbit
    rw [hbit]
  · simp [hj]

/-- The declared length is the two low bits of header byte 1, then header byte 2 (R71). -/
theorem declaredLength_eq_append (b1 b2 : Byte) : declaredLength b1 b2 = b1.extractLsb' 0 2 ++ b2 := by
  refine BitVec.eq_of_getLsbD_eq fun i hi => ?_
  rw [BitVec.getLsbD_append]
  by_cases h8 : i < 8
  · simp [declaredLength, h8, hi]
  · obtain rfl | rfl : i = 8 ∨ i = 9 := by omega
    all_goals simp [declaredLength]

theorem declaredLength_toNat (b1 b2 : Byte) : (declaredLength b1 b2).toNat = b1.toNat % 4 * 256 + b2.toNat := by
  rw [declaredLength_eq_append, BitVec.toNat_append, ← Nat.shiftLeft_add_eq_or_of_lt b2.isLt, Nat.shiftLeft_eq]
  simp

/-- Settles O16: the field is the two low bits of byte 1, then byte 2. -/
theorem declaredLengthIsTenBitField : Obligations.DeclaredLengthIsTenBitField := by
  intro m
  have hfield : m.getu 14 10 = (m.byte 1).toNat % 4 * 256 + (m.byte 2).toNat := by
    rw [Memory.getu_append m 14 2 8, m.getu_within_byte 1 (i := 6) (lo := 0) rfl, m.getu_byte 2]
    simp
  have hand : (m.byte 1).toNat &&& 3 = (m.byte 1).toNat % 4 := Nat.and_two_pow_sub_one_eq_mod _ 2
  rw [declaredLength_toNat, hand]
  exact ⟨hfield.symm, hfield⟩

end Sys2Proof.Machine
end

section
/-! SUPPORT. A frame taken byte by byte (R151 to R157, R159): the state while its bytes are being gathered, the end of it, and the
frame a sender builds (R70). -/

namespace Sys2Proof.Machine

/-! The bytes of a sequence stored from index 0. -/

/-- The buffer with `bytes` stored from index 0 on, one write after the other. -/
def Memory.storeBytes (m : Memory) (bytes : List Byte) : Memory :=
  bytes.zipIdx.foldl (fun m e => m.write e.2 e.1) m

theorem Memory.storeBytes_append_singleton (m : Memory) (bytes : List Byte) (b : Byte) :
    m.storeBytes (bytes ++ [b]) = (m.storeBytes bytes).write bytes.length b := by
  simp [Memory.storeBytes, List.zipIdx_append]

theorem Memory.byte_storeBytes (m : Memory) (bytes : List Byte) (a : Nat) :
    (m.storeBytes bytes).byte a = if h : a < bytes.length then bytes[a] else m.byte a := by
  induction bytes using List.reverseRecOn with
  | nil => rfl
  | append_singleton bs b ih =>
    rw [Memory.storeBytes_append_singleton, Memory.byte_write, ih]
    simp only [List.length_append, List.length_singleton, List.getElem_append]
    by_cases heq : a = bs.length
    · simp [heq]
    · by_cases hlt : a < bs.length
      · rw [if_neg heq, dif_pos hlt, dif_pos (by omega), dif_pos hlt]
      · rw [if_neg heq, dif_neg hlt, dif_neg (by omega)]

theorem Memory.byte_storeBytes_lt (m : Memory) {bytes : List Byte} {a : Nat} (h : a < bytes.length) :
    (m.storeBytes bytes).byte a = bytes[a] := by
  rw [Memory.byte_storeBytes, dif_pos h]

/-- The CRC of the first bytes stored is the CRC of those bytes as a sequence (R133). -/
theorem Memory.crc24q_storeBytes_append (m : Memory) (bytes more : List Byte) :
    (m.storeBytes (bytes ++ more)).crc24q bytes.length = crcOfBytes bytes := by
  refine Memory.crc24q_eq_crcOfBytes _ _ fun i hi => ?_
  have hlt : i < (bytes ++ more).length := by rw [List.length_append]; omega
  rw [Memory.byte_storeBytes_lt m hlt, List.getElem_append_left hi]

/-- The three bytes stored after the others are the trailer read (R43, R156). -/
theorem Memory.read3_storeBytes_append (m : Memory) (bytes : List Byte) (t0 t1 t2 : Byte) :
    (m.storeBytes (bytes ++ [t0, t1, t2])).read3 bytes.length = t0 ++ t1 ++ t2 := by
  have h (k : Nat) (hk : k < 3) (a : Nat) (ha : a = bytes.length + k) :
      (m.storeBytes (bytes ++ [t0, t1, t2])).byte a = [t0, t1, t2][k] := by
    subst ha
    rw [Memory.byte_storeBytes_lt m (by simp; omega), List.getElem_append_right (by omega)]
    simp
  rw [Memory.read3, h 0 (by decide) bytes.length rfl, h 1 (by decide) _ rfl, h 2 (by decide) _ rfl]
  rfl

/-! A byte sequence fed to the framer (R44). -/

@[simp] theorem feed_nil (s : State) : feed [] s = .next s := rfl

theorem feed_cons {b : Byte} {s t : State} (bytes : List Byte) (h : execPush b s = .next t) :
    feed (b :: bytes) s = feed bytes t := by
  simp only [feed, pushN, List.map_cons, perform, exec, h]

/-- What is fed after a sequence is fed to the state the sequence leaves. -/
theorem feed_append {bytes : List Byte} {s t : State} (more : List Byte) (h : feed bytes s = .next t) :
    feed (bytes ++ more) s = feed more t := by
  induction bytes generalizing s with
  | nil => cases h; rfl
  | cons b bs ih =>
    cases hb : execPush b s with
    | next u =>
      rw [feed_cons bs hb] at h
      rw [List.cons_append, feed_cons _ hb, ih h]
    | fault r => simp [feed, pushN, perform, exec, hb] at h
    | refused r => simp [feed, pushN, perform, exec, hb] at h

/-! The body of a frame being gathered. -/

/-- The state `s`, idle before, after the first bytes of a frame whose header declares the length `len` and the flag `resv`: at
least the header, and not yet the last trailer byte (R24, R29). -/
def State.gathered (s : State) (len : BitVec 10) (resv : Bool) (bytes : List Byte) : State :=
  { s with
    buf := s.buf.storeBytes bytes
    frFill := BitVec.ofNat 11 bytes.length
    frLen := len
    frReady := false
    frResv := resv
    frState := if bytes.length < len.toNat + 3 then .payload else .crc
    response := some ⟨.ok, 0#64⟩ }

/-- Preamble and header bytes take an idle framer to the frame's first payload byte, or to its trailer (R152 to R154). -/
theorem feed_header {s : State} (h1 h2 : Byte) (hs : s.frState = .idle) :
    feed [Config.preamble, h1, h2] s =
      .next (s.gathered (declaredLength h1 h2) (reservedFlag h1) [Config.preamble, h1, h2]) := by
  have hstate : (if declaredLength h1 h2 = 0#10 then FrState.crc else .payload)
      = if 0 < (declaredLength h1 h2).toNat then .payload else .crc := by
    by_cases hzero : declaredLength h1 h2 = 0#10
    · simp [hzero]
    · have hpos : 0 < (declaredLength h1 h2).toNat := Nat.pos_of_ne_zero fun hn => hzero (BitVec.eq_of_toNat_eq hn)
      rw [if_neg hzero, if_pos hpos]
  rw [feed_cons _ (execPush_of_idle hs), pushIdle, if_pos rfl, feed_cons _ (execPush_of_len1 rfl),
    feed_cons _ (execPush_of_len2 rfl), feed_nil]
  simp [pushLen2, pushLen1, State.respond, State.gathered, Memory.storeBytes, Memory.byte_write, hstate]

theorem State.gathered_frFill {s : State} {len : BitVec 10} {resv : Bool} {bytes : List Byte}
    (hlen : bytes.length ≤ len.toNat + 6) : (s.gathered len resv bytes).frFill.toNat = bytes.length := by
  have := len.isLt
  exact (BitVec.toNat_ofNat ..).trans (Nat.mod_eq_of_lt (by omega))

theorem State.gathered_append_frFill (s : State) {len : BitVec 10} (resv : Bool) {bytes : List Byte} (b : Byte)
    (hlen : bytes.length < len.toNat + 6) :
    (s.gathered len resv (bytes ++ [b])).frFill.toNat = bytes.length + 1 := by
  rw [State.gathered_frFill (by rw [List.length_append]; exact hlen), List.length_append, List.length_singleton]

/-- Storing a byte at `fr_fill` stores it behind the bytes gathered (R155, R156). -/
theorem storeAtFill_gathered {s : State} {len : BitVec 10} {resv : Bool} {bytes : List Byte} (b : Byte)
    (rest : State → State) (hlen : bytes.length < len.toNat + 6) :
    storeAtFill b (s.gathered len resv bytes) rest = .next (rest
      { s.gathered len resv (bytes ++ [b]) with frState := (s.gathered len resv bytes).frState }) := by
  have := len.isLt
  have hfill := State.gathered_frFill (s := s) (resv := resv) (Nat.le_of_lt hlen)
  rw [storeAtFill, if_pos (by rw [hfill, Config.bufBytes]; omega), hfill]
  simp [State.gathered, Memory.storeBytes_append_singleton, BitVec.ofNat_add]

/-- In the frame's body and before its last trailer byte, a byte is gathered (R155, R156). -/
theorem execPush_gathered {s : State} {len : BitVec 10} {resv : Bool} {bytes : List Byte} (b : Byte)
    (hmore : bytes.length < len.toNat + 5) :
    execPush b (s.gathered len resv bytes) = .next (s.gathered len resv (bytes ++ [b])) := by
  have hfill := s.gathered_append_frFill resv b (by omega : bytes.length < len.toNat + 6)
  by_cases hp : bytes.length < len.toNat + 3
  · have hstate : (if bytes.length = len.toNat + 2 then FrState.crc else .payload)
        = if bytes.length < len.toNat + 2 then .payload else .crc := by
      by_cases hlast : bytes.length = len.toNat + 2
      · simp [hlast]
      · rw [if_neg hlast, if_pos (by omega)]
    rw [execPush_of_payload (if_pos hp), storeAtFill_gathered b _ (by omega), pushPayload]
    simp only [hfill]
    simp [State.gathered, State.respond, hp, hstate]
  · have hlt : (s.gathered len resv (bytes ++ [b])).frFill.toNat < len.toNat + 6 := by omega
    have hnot : ¬ bytes.length < len.toNat + 2 := by omega
    refine (execPush_of_crc (if_neg hp)).trans ((storeAtFill_gathered b _ (by omega)).trans (congrArg _ ?_))
    refine (if_pos hlt).trans ?_
    simp [State.gathered, State.respond, hp, hnot]

/-- The end of a frame does not look at the state register. -/
theorem completeFrame_of_frState (s : State) (st : FrState) : completeFrame { s with frState := st } = completeFrame s := by
  simp only [completeFrame_eq]

/-- The last trailer byte ends the frame (R156). -/
theorem execPush_gathered_last {s : State} {len : BitVec 10} {resv : Bool} {bytes : List Byte} (b : Byte)
    (hlast : bytes.length = len.toNat + 5) :
    execPush b (s.gathered len resv bytes) = .next (completeFrame (s.gathered len resv (bytes ++ [b]))) := by
  have hfill := s.gathered_append_frFill resv b (by omega : bytes.length < len.toNat + 6)
  have hge : ¬ (s.gathered len resv (bytes ++ [b])).frFill.toNat < len.toNat + 6 := by omega
  refine (execPush_of_crc (if_neg (by omega))).trans ((storeAtFill_gathered b _ (by omega)).trans (congrArg _ ?_))
  exact (if_neg hge).trans (completeFrame_of_frState _ _)

/-- All of the body and the trailer but its last byte can be gathered. -/
theorem feed_gathered {s : State} {len : BitVec 10} {resv : Bool} {bytes more : List Byte}
    (hmore : bytes.length + more.length ≤ len.toNat + 5) :
    feed more (s.gathered len resv bytes) = .next (s.gathered len resv (bytes ++ more)) := by
  induction more generalizing bytes with
  | nil => simp
  | cons b more ih =>
    rw [List.length_cons] at hmore
    rw [feed_cons more (execPush_gathered b (by omega)), ih (by simp; omega)]
    simp

/-- A whole frame pushed from IDLE ends it: `L` payload bytes after the header that declares `L`, then three trailer bytes (R159). -/
theorem feed_frame {s : State} {h1 h2 : Byte} {payload : List Byte} (t0 t1 t2 : Byte) (hs : s.frState = .idle)
    (hlen : (declaredLength h1 h2).toNat = payload.length) :
    feed (Config.preamble :: h1 :: h2 :: payload ++ [t0, t1, t2]) s =
      .next (completeFrame (s.gathered (declaredLength h1 h2) (reservedFlag h1)
        (Config.preamble :: h1 :: h2 :: payload ++ [t0, t1, t2]))) := by
  have hsplit : Config.preamble :: h1 :: h2 :: payload ++ [t0, t1, t2]
      = [Config.preamble, h1, h2] ++ ((payload ++ [t0, t1]) ++ [t2]) := by simp
  rw [hsplit, feed_append _ (feed_header h1 h2 hs), feed_append _ (feed_gathered (by simp; omega)),
    feed_cons _ (execPush_gathered_last t2 (by simp; omega)), feed_nil]
  simp

/-- The end of a frame that stands in the buffer with its trailer: the CRC of the body decides (R156 to R158). -/
theorem completeFrame_gathered (s : State) {len : BitVec 10} (resv : Bool) {body : List Byte} (t0 t1 t2 : Byte)
    (hlen : body.length = len.toNat + 3) :
    completeFrame (s.gathered len resv (body ++ [t0, t1, t2])) =
      { s with
        buf := s.buf.storeBytes (body ++ [t0, t1, t2])
        frState := .idle
        frFill := 0
        frLen := len
        frResv := resv
        frReady := decide (crcOfBytes body = t0 ++ t1 ++ t2)
        response := some ⟨if crcOfBytes body = t0 ++ t1 ++ t2 then .frame else .crcErr,
          completionInfo (t0 ++ t1 ++ t2) (crcOfBytes body) resv body.length⟩ } := by
  have hcrc := s.buf.crc24q_storeBytes_append body [t0, t1, t2]
  have htrailer := s.buf.read3_storeBytes_append body t0 t1 t2
  rw [completeFrame_eq]
  simp only [State.gathered, ← hlen, hcrc, htrailer]

/-- The fields of the completion word are the ones it is put together from (R157). -/
theorem infoSays_completionInfo (received computed : Crc) (resv : Bool) {t : Nat} (ht : t < 2 ^ 11) :
    InfoSays (completionInfo received computed resv t) t resv computed received := by
  unfold InfoSays completionInfo
  refine ⟨?_, ?_, ?_, ?_, ?_⟩
  · rw [BitVec.extractLsb'_setWidth_of_le (by decide), BitVec.extractLsb'_append_eq_right, BitVec.toNat_ofNat,
      Nat.mod_eq_of_lt ht]
  · rw [BitVec.getLsbD_setWidth, BitVec.getLsbD_append, BitVec.getLsbD_append]
    simp
  · rw [BitVec.extractLsb'_setWidth_of_le (by decide), BitVec.extractLsb'_append_eq_of_le (by decide),
      BitVec.extractLsb'_append_eq_of_le (by decide), BitVec.extractLsb'_append_eq_right]
  · rw [BitVec.extractLsb'_setWidth_of_le (by decide), BitVec.extractLsb'_append_eq_of_le (by decide),
      BitVec.extractLsb'_append_eq_of_le (by decide), BitVec.extractLsb'_append_eq_left]
  · rw [BitVec.extractLsb'_setWidth_of_le (by decide)]
    refine BitVec.eq_of_getLsbD_eq fun i hi => ?_
    rw [BitVec.getLsbD_extractLsb', BitVec.getLsbD_of_ge _ _ (by omega)]
    simp

/-! The frame a sender builds (R70). -/

theorem trailer_append (c : Crc) : c.extractLsb' 16 8 ++ c.extractLsb' 8 8 ++ c.extractLsb' 0 8 = c := by
  have hhigh : c.extractLsb' 16 8 ++ c.extractLsb' 8 8 = c.extractLsb' 8 16 :=
    BitVec.extractLsb'_append_extractLsb'_eq_extractLsb' rfl
  rw [hhigh]
  exact BitVec.extractLsb'_append_extractLsb' (w := 16)

theorem declaredLength_header (resv : BitVec 6) (len : BitVec 10) :
    declaredLength (resv ++ len.extractLsb' 8 2) (len.extractLsb' 0 8) = len := by
  rw [declaredLength_eq_append, BitVec.extractLsb'_append_eq_right]
  exact BitVec.extractLsb'_append_extractLsb' (w := 2)

theorem reservedFlag_header (resv : BitVec 6) (high : BitVec 2) : reservedFlag (resv ++ high) = decide (resv ≠ 0#6) := by
  have hand : (resv ++ high : Byte) &&& 0xFC#8 = resv ++ 0#2 :=
    (BitVec.and_append (x₂ := BitVec.allOnes 6) (y₂ := 0#2)).trans (by rw [BitVec.and_allOnes, BitVec.and_zero])
  rw [reservedFlag, hand]
  exact decide_eq_decide.2 (not_congr (BitVec.append_left_inj (s₂ := 0#6) 0#2))

/-- A sender's frame ends with FRAME: its header declares the payload's length, its trailer is the CRC of its body (R70, R161). -/
theorem feed_wireFrame {s : State} (resv : BitVec 6) {payload : List Byte} (hs : s.frState = .idle)
    (hle : payload.length ≤ 1023) :
    feed (wireFrame resv payload) s = .next
      { s with
        buf := s.buf.storeBytes (wireFrame resv payload)
        frState := .idle
        frFill := 0
        frLen := BitVec.ofNat 10 payload.length
        frResv := decide (resv ≠ 0#6)
        frReady := true
        response := some ⟨.frame, completionInfo (crcOfBytes (frameBody resv payload))
          (crcOfBytes (frameBody resv payload)) (decide (resv ≠ 0#6)) (frameBody resv payload).length⟩ } := by
  have hlen : (BitVec.ofNat 10 payload.length).toNat = payload.length :=
    (BitVec.toNat_ofNat ..).trans (Nat.mod_eq_of_lt (by omega))
  have hdecl := declaredLength_header resv (BitVec.ofNat 10 payload.length)
  have hbody : (frameBody resv payload).length = (BitVec.ofNat 10 payload.length).toNat + 3 := by simp [frameBody, hlen]
  have hcrc := trailer_append (crcOfBytes (frameBody resv payload))
  unfold wireFrame trailerBytes
  refine (feed_frame _ _ _ hs (by rw [hdecl, hlen])).trans ?_
  rw [hdecl, reservedFlag_header]
  refine congrArg _ ((completeFrame_gathered s _ _ _ _ hbody).trans ?_)
  rw [hcrc, if_pos rfl, decide_eq_true rfl]

/-- The message type of the frame: the first 12 bits of its payload (R73). -/
theorem Memory.getu_msgType {m : Memory} {b0 b1 : Byte} (h0 : m.byte 3 = b0) (h1 : m.byte 4 = b1) :
    m.getu 24 12 = b0.toNat * 16 + b1.toNat / 16 := by
  have hhigh : b1.toNat / 2 ^ 4 < 2 ^ 4 := Nat.div_lt_of_lt_mul b1.isLt
  rw [Memory.getu_append m 24 8 4, m.getu_byte 3, m.getu_within_byte 4 (i := 0) (n := 4) (lo := 4) rfl, h0, h1,
    Nat.mod_eq_of_lt hhigh]
  rfl

/-- Settles O38: the frame ends with FRAME, and the bytes stored are the ones fed. -/
theorem wireFrameIsEmitted : Obligations.WireFrameIsEmitted := by
  intro s resv payload hs hle
  have hbody : (frameBody resv payload).length = payload.length + 3 := rfl
  refine ⟨_, _, feed_wireFrame resv hs hle, rfl, rfl, rfl, ?_, fun b0 b1 more hpayload => ?_⟩
  · rw [hbody]
    exact infoSays_completionInfo _ _ _ (by omega)
  · subst hpayload
    rw [exec_getu_of_inRange _ (by decide), Memory.getu_msgType]
    · rfl
    · exact Memory.byte_storeBytes_lt _ (by simp [wireFrame, frameBody])
    · exact Memory.byte_storeBytes_lt _ (by simp [wireFrame, frameBody])

end Sys2Proof.Machine
end

section
/-! SUPPORT. The encoding part of a command's rule (R63, R64), for every row of the opcode map. -/

namespace Sys2Proof.Machine

/-- A word with the row's opcode decodes to the row's command, or is answered ILLEGAL for a must-be-zero bit. -/
theorem encodedAs_operands (op : Opcode) : EncodedAs op.code op.mbz op.operands := by
  intro c hop
  have hdecode : decode c = if c.cmd &&& op.mbz = 0#32 then .instr (op.operands c) else .illegal (.mustBeZero op) :=
    decode_of_opcode hop
  refine ⟨fun hmbz => hdecode.trans (if_pos hmbz), fun hmbz s rest => ?_⟩
  exact step_of_decode_illegal rfl (hdecode.trans (if_neg hmbz))

end Sys2Proof.Machine
end

section
/-! SUPPORT. The bit-field reads (R100 to R105): a field as a sum of bits and as a bit pattern of its own width, and the numbers that
the reads answer. -/

namespace Sys2Proof.Machine

theorem not_fieldInRange_iff {pos len : Nat} : ¬ FieldInRange pos len ↔ len < 1 ∨ 32 < len ∨ 8232 < pos + len := by
  simp only [FieldInRange, Config.fieldMin, Config.fieldMax, Config.bufBits]
  omega

/-! A field as the sum of its bits. -/

theorem Memory.toNat_bit (m : Memory) (i : Nat) :
    (m.bit i).toNat = ((m.byte (i >>> 3)).toNat >>> (7 - (i &&& 7))) &&& 1 := by
  have hdiv : i >>> 3 = i / 8 := Nat.shiftRight_eq_div_pow i 3
  have hmod : i &&& 7 = i % 8 := Nat.and_two_pow_sub_one_eq_mod i 3
  rw [hdiv, hmod, Memory.bit, ← BitVec.testBit_toNat, Nat.toNat_testBit, Nat.and_one_is_mod, Nat.shiftRight_eq_div_pow]

/-- One more bit below doubles the weight of every bit before it. -/
theorem Memory.getu_eq_sum (m : Memory) (pos n : Nat) :
    m.getu pos n = ∑ k ∈ Finset.range n, (m.bit (pos + k)).toNat <<< (n - 1 - k) := by
  induction n with
  | zero => rfl
  | succ n ih =>
    have hdouble : ∀ k ∈ Finset.range n,
        (m.bit (pos + k)).toNat <<< (n - k) = 2 * (m.bit (pos + k)).toNat <<< (n - 1 - k) := by
      intro k hk
      have hsucc : n - k = (n - 1 - k) + 1 := by have := Finset.mem_range.1 hk; omega
      rw [hsucc, Nat.shiftLeft_succ]
    rw [Memory.getu, ih, Finset.sum_range_succ, Nat.add_sub_cancel, Finset.sum_congr rfl hdouble, ← Finset.mul_sum,
      Nat.sub_self, Nat.shiftLeft_zero]

/-- Settles O14: the bit view by shift and mask, and the field by induction on its width. -/
theorem fieldIsSumOfItsBits : Obligations.FieldIsSumOfItsBits := ⟨Memory.toNat_bit, Memory.getu_eq_sum⟩

/-! GETU. -/

theorem getLsbD_zext64_getu (m : Memory) (pos len : Nat) {j : Nat} (hj : j < 64) :
    (zext64 (m.getu pos len)).getLsbD j = (decide (j < len) && m.bit (pos + (len - 1 - j))) := by
  rw [zext64, BitVec.getLsbD_ofNat, Memory.testBit_getu, decide_eq_true hj, Bool.true_and]

/-- Settles O17: in range the response is the number of R101, whose bits are the field's. -/
theorem getuReadsUnsignedField : Obligations.GetuReadsUnsignedField := by
  refine ⟨encodedAs_operands .getu, fun s pos len => ⟨fun hout => if_neg (not_fieldInRange_iff.2 hout), ?_⟩⟩
  intro hmin hmax hpos
  exact ⟨_, exec_getu_of_inRange s ⟨hmin, hmax, hpos⟩, fun j hj => getLsbD_zext64_getu s.buf pos len hj⟩

/-! A field as a bit pattern of its own width, whose two's-complement number the signed reads answer. -/

/-- The `len` bits at `pos`, the first one most significant. -/
def Memory.field (m : Memory) (pos len : Nat) : BitVec len := BitVec.ofNat len (m.getu pos len)

theorem Memory.field_toNat (m : Memory) (pos len : Nat) : (m.field pos len).toNat = m.getu pos len :=
  (BitVec.toNat_ofNat ..).trans (Nat.mod_eq_of_lt (m.getu_lt pos len))

theorem Memory.field_getLsbD (m : Memory) (pos len j : Nat) :
    (m.field pos len).getLsbD j = (decide (j < len) && m.bit (pos + (len - 1 - j))) := by
  rw [← BitVec.testBit_toNat, Memory.field_toNat, Memory.testBit_getu]

theorem Memory.field_msb (m : Memory) (pos : Nat) {len : Nat} (hlen : 1 ≤ len) :
    (m.field pos len).msb = m.bit pos := by
  rw [BitVec.msb_eq_getLsbD_last, Memory.field_getLsbD, decide_eq_true (by omega), Bool.true_and, Nat.sub_self,
    Nat.add_zero]

theorem Memory.field_toInt (m : Memory) (pos : Nat) {len : Nat} (hlen : 1 ≤ len) :
    (m.field pos len).toInt = (m.getu pos len : Int) - (if m.bit pos then 2 ^ len else 0) := by
  rw [BitVec.toInt_eq_msb_cond, Memory.field_msb m pos hlen, Memory.field_toNat]
  split <;> simp

/-- The model's `sval` of a field is the number of its bit pattern (R9). -/
theorem Memory.sval_getu (m : Memory) (pos len : Nat) : sval len (m.getu pos len) = (m.field pos len).toInt := by
  rw [sval, BitVec.toInt, Memory.field_toNat]
  split <;> simp

/-- Sign extension copies the field's first bit into every bit above the field. -/
theorem Memory.getLsbD_signExtend_field (m : Memory) (pos : Nat) {len j : Nat} (hlen : 1 ≤ len) (hj : j < 64) :
    ((m.field pos len).signExtend 64).getLsbD j = m.bit (pos + (len - 1 - min j (len - 1))) := by
  rw [BitVec.getLsbD_signExtend, decide_eq_true hj, Bool.true_and]
  by_cases hin : j < len
  · rw [if_pos hin, Memory.field_getLsbD, decide_eq_true hin, Bool.true_and, Nat.min_eq_left (by omega)]
  · rw [if_neg hin, Memory.field_msb m pos hlen, Nat.min_eq_right (by omega), Nat.sub_self, Nat.add_zero]

theorem exec_gets_of_inRange {pos len : Nat} (s : State) (h : FieldInRange pos len) :
    exec (.gets pos len) s = .next (answered s .ok ((s.buf.field pos len).signExtend 64)) := by
  refine (if_pos h).trans ?_
  rw [Memory.sval_getu]
  rfl

/-- Settles O18: in range the response is the field sign-extended. -/
theorem getsSignExtendsField : Obligations.GetsSignExtendsField := by
  refine ⟨encodedAs_operands .gets, fun s pos len => ⟨fun hout => if_neg (not_fieldInRange_iff.2 hout), ?_⟩⟩
  intro hmin hmax hpos
  refine ⟨_, exec_gets_of_inRange s ⟨hmin, hmax, hpos⟩, ?_, fun j hj => s.buf.getLsbD_signExtend_field pos hmin hj⟩
  rw [BitVec.toInt_signExtend_of_le (by omega), Memory.field_toInt _ _ hmin]

/-! GETS38. -/

/-- 32 signed bits times 64 and 6 unsigned bits are one two's-complement field of 38 bits (R104): the sign bit, `BufBit(pos)`, is
that of both, and `2 ^ 32 * 64 = 2 ^ 38`. -/
theorem Memory.gets38_eq_toInt (m : Memory) (pos : Nat) : m.gets38 pos = (m.field pos 38).toInt := by
  have happend : m.getu pos 38 = m.getu pos 32 * 64 + m.getu (pos + 32) 6 := m.getu_append pos 32 6
  rw [Memory.gets38, Memory.sval_getu, Memory.field_toInt m pos (by decide), Memory.field_toInt m pos (by decide), happend]
  split <;> omega

theorem exec_gets38_of_inRange {pos : Nat} (s : State) (h : Field38InRange pos) :
    exec (.gets38 pos) s = .next (answered s .ok ((s.buf.field pos 38).signExtend 64)) := by
  refine (if_pos h).trans ?_
  rw [Memory.gets38_eq_toInt]
  rfl

/-- Settles O19: the model's `hi * 64 + lo` is the 38-bit field, and the response is that field sign-extended. -/
theorem gets38ReadsSigned38BitField : Obligations.Gets38ReadsSigned38BitField := by
  refine ⟨encodedAs_operands .gets38, fun s pos => ⟨fun hout => if_neg (Nat.not_le.2 hout), fun hpos => ?_⟩⟩
  have hvalue : ((s.buf.field pos 38).signExtend 64).toInt = (s.buf.field pos 38).toInt :=
    BitVec.toInt_signExtend_of_le (by decide)
  refine ⟨_, exec_gets38_of_inRange s hpos, ?_, hvalue, fun j hj => s.buf.getLsbD_signExtend_field pos (by decide) hj⟩
  rw [hvalue, ← Memory.gets38_eq_toInt, Memory.gets38, Memory.sval_getu]
  rfl

/-! GETSM. -/

theorem exec_getsm_of_inRange {pos len : Nat} (s : State) (h : FieldInRange pos len) :
    exec (.getsm pos len) s = .next (answered s .ok (tc64 (s.buf.getsm pos len))) :=
  if_pos h

theorem Memory.getsm_eq_sign_mul (m : Memory) (pos len : Nat) :
    m.getsm pos len = (if m.bit pos then -1 else 1) * (m.getu (pos + 1) (len - 1) : Int) := by
  unfold Memory.getsm
  split <;> simp

/-- A sign-magnitude number is smaller than the magnitude's `2 ^ (len - 1)` on both sides (R105). -/
theorem Memory.getsm_bounds (m : Memory) (pos len : Nat) :
    -(2 ^ (len - 1) - 1 : Int) ≤ m.getsm pos len ∧ m.getsm pos len ≤ 2 ^ (len - 1) - 1 := by
  have hmag : (m.getu (pos + 1) (len - 1) : Int) < 2 ^ (len - 1) := by exact_mod_cast m.getu_lt (pos + 1) (len - 1)
  unfold Memory.getsm
  split <;> omega

/-- The 64-bit pattern of an integer within 64-bit two's complement reads as that integer (R9). -/
theorem toInt_tc64 {x : Int} {n : Nat} (hn : n ≤ 63) (hmin : -(2 ^ n) ≤ x) (hmax : x < 2 ^ n) : (tc64 x).toInt = x := by
  have hpow : (2 : Int) ^ n ≤ 2 ^ 63 := pow_le_pow_right₀ (by decide) hn
  exact BitVec.toInt_ofInt_eq_self (by decide) ((neg_le_neg hpow).trans hmin) (hmax.trans_le hpow)

/-- Settles O20: the response reads as the model's sign-magnitude number, whose magnitude is a field. -/
theorem getsmReadsSignMagnitudeField : Obligations.GetsmReadsSignMagnitudeField := by
  refine ⟨encodedAs_operands .getsm, fun s pos len => ⟨fun hout => if_neg (not_fieldInRange_iff.2 hout), ?_⟩⟩
  intro hmin hmax hpos
  obtain ⟨hlow, hhigh⟩ := Memory.getsm_bounds s.buf pos len
  have hvalue : (tc64 (s.buf.getsm pos len)).toInt = s.buf.getsm pos len :=
    toInt_tc64 (n := len - 1) (by omega) (by omega) (by omega)
  refine ⟨_, exec_getsm_of_inRange s ⟨hmin, hmax, hpos⟩, ?_, by rwa [hvalue], by rwa [hvalue], ?_⟩
  · rw [hvalue, Memory.getsm_eq_sign_mul, Memory.getu_eq_sum, Nat.sub_sub]
  · rintro rfl
    simp [Memory.getsm, Memory.getu, tc64]

end Sys2Proof.Machine
end

section
/-! SUPPORT. The bit-field writes (R106 to R108): what stands in the buffer after them, what they answer, and reading the field
back. -/

namespace Sys2Proof.Machine

/-! The written field. -/

theorem Memory.bit_writeField_inside (m : Memory) (pos : Nat) {len j : Nat} (v : Word) (hj : j < len) :
    (m.writeField pos len v).bit (pos + (len - 1 - j)) = v.getLsbD j := by
  rw [Memory.writeField, Memory.bit_writeBits, if_pos (by omega)]
  congr 1
  omega

theorem Memory.fieldStored_writeField (m : Memory) (pos len : Nat) (v : Word) :
    FieldStored m (m.writeField pos len v) pos len v := by
  refine ⟨fun j hj => m.bit_writeField_inside pos v hj, fun i hi => m.bit_writeField_outside v hi, fun a ha => ?_⟩
  exact m.byte_writeBits_ne pos len v len a (by omega)

theorem Memory.field_writeField (m : Memory) (pos len : Nat) (v : Word) :
    (m.writeField pos len v).field pos len = v.setWidth len := by
  refine BitVec.eq_of_getLsbD_eq fun j hj => ?_
  rw [Memory.field_getLsbD, Memory.bit_writeField_inside m pos v hj, BitVec.getLsbD_setWidth]

/-! The writes in range. -/

theorem exec_setu_of_fits {pos len : Nat} {v : Word} (s : State) (h : FieldInRange pos len) (hv : UnsignedFits len v) :
    exec (.setu pos len v) s = .next (s.hostWrite (s.buf.writeField pos len v)) :=
  if_pos ⟨h, hv⟩

theorem exec_sets_of_fits {pos len : Nat} {v : Word} (s : State) (h : FieldInRange pos len) (hv : SignedFits len v) :
    exec (.sets pos len v) s = .next (s.hostWrite (s.buf.writeField pos len v)) :=
  if_pos ⟨h, hv⟩

/-- A command that writes a field for the host answers BUSY in flight, and else stores the field and clears `fr_ready`
(R106, R107, R201). -/
theorem fieldWrite_cases {s : State} {pos len : Nat} {v : Word} {out : Host.Outcome State Fault Refusal}
    (h : out = .next (s.hostWrite (s.buf.writeField pos len v))) :
    (s.frState ≠ .idle → out = .next (answered s .busy 0#64)) ∧
    (s.frState = .idle → ∃ m, FieldStored s.buf m pos len v ∧
      out = .next { s with buf := m, frReady := false, response := some ⟨.ok, 0#64⟩ }) := by
  subst h
  refine ⟨fun hs => ?_, fun hs => ⟨_, s.buf.fieldStored_writeField pos len v, ?_⟩⟩
  · rw [State.hostWrite_busy _ hs, answered]
  · rw [State.hostWrite_idle _ hs]

/-- Settles O21: out of range by the operand checks, else a field write. -/
theorem setuStoresFieldOrRangeOrBusy : Obligations.SetuStoresFieldOrRangeOrBusy := by
  refine ⟨encodedAs_operands .setu, fun s pos len v => ⟨fun hout => if_neg ?_, fun hmin hmax hpos hv => ?_⟩⟩
  · have hout : ¬ FieldInRange pos len ∨ 2 ^ len ≤ v.toNat := by rwa [not_fieldInRange_iff, or_assoc, or_assoc]
    exact fun ⟨hrange, hfits⟩ => hout.elim (· hrange) (Nat.not_lt.2 · hfits)
  · exact fieldWrite_cases (exec_setu_of_fits s ⟨hmin, hmax, hpos⟩ hv)

/-- Settles O22: out of range by POS and LEN or by the value, else a field write. -/
theorem setsStoresFieldOrRangeOrBusy : Obligations.SetsStoresFieldOrRangeOrBusy := by
  refine ⟨encodedAs_operands .sets, fun s pos len v =>
    ⟨fun hout => if_neg ?_, fun hmin hmax hpos => ⟨fun hout => if_neg ?_, ?_⟩⟩⟩
  · exact fun ⟨hrange, _⟩ => not_fieldInRange_iff.2 hout hrange
  · exact fun ⟨_, hlow, hhigh⟩ => hout.elim (Int.not_lt.2 hlow) (Int.not_le.2 hhigh)
  · exact fun hlow hhigh => fieldWrite_cases (exec_sets_of_fits s ⟨hmin, hmax, hpos⟩ ⟨hlow, hhigh⟩)

/-! Reading back. -/

/-- The low `len` bits of a number in the field's signed range read as that number. -/
theorem toInt_setWidth_of_signedFits {len : Nat} {v : Word} (hmin : 1 ≤ len) (hmax : len ≤ 32) (hv : SignedFits len v) :
    (v.setWidth len).toInt = v.toInt := by
  obtain ⟨hlow, hhigh⟩ := hv
  rw [← BitVec.signExtend_eq_setWidth_of_le v hmax]
  exact BitVec.toInt_ofInt_eq_self hmin hlow hhigh

theorem Memory.zext64_getu_writeField (m : Memory) (pos : Nat) {len : Nat} {v : Word} (hv : UnsignedFits len v) :
    zext64 ((m.writeField pos len v).getu pos len) = v.setWidth 64 := by
  rw [← Memory.field_toNat, Memory.field_writeField, BitVec.toNat_setWidth, Nat.mod_eq_of_lt hv]
  exact BitVec.ofNat_toNat 64 v

theorem Memory.signExtend_field_writeField (m : Memory) (pos : Nat) {len : Nat} {v : Word} (hmin : 1 ≤ len)
    (hmax : len ≤ 32) (hv : SignedFits len v) :
    ((m.writeField pos len v).field pos len).signExtend 64 = v.signExtend 64 := by
  rw [Memory.field_writeField, BitVec.signExtend, toInt_setWidth_of_signedFits hmin hmax hv, BitVec.signExtend]

/-- Settles O23: the field that stands in the buffer after a write is the low bits of the value. -/
theorem writtenFieldReadsBack : Obligations.WrittenFieldReadsBack := by
  intro s pos len v hs hmin hmax hpos
  have hrange : FieldInRange pos len := ⟨hmin, hmax, hpos⟩
  have hwrite := State.hostWrite_idle (s.buf.writeField pos len v) hs
  refine ⟨fun hv => ⟨_, (exec_setu_of_fits s hrange hv).trans (congrArg _ hwrite), rfl, ?_, ?_⟩,
    fun hlow hhigh => ⟨_, (exec_sets_of_fits s hrange ⟨hlow, hhigh⟩).trans (congrArg _ hwrite), rfl, ?_, ?_⟩⟩
  · rw [exec_getu_of_inRange _ hrange, Memory.zext64_getu_writeField s.buf pos hv]
  · exact fun i hi => s.buf.bit_writeField_outside v hi
  · rw [exec_gets_of_inRange _ hrange, Memory.signExtend_field_writeField s.buf pos hmin hmax ⟨hlow, hhigh⟩]
  · exact fun i hi => s.buf.bit_writeField_outside v hi

end Sys2Proof.Machine
end

section
/-! SUPPORT. The CRC-24Q generator (R131 to R137): a turn of its loop is linear over XOR and loses no register value, so the byte
update is eight turns over the register with the byte added on top, and a trailer brings the register to 0 exactly if it is the
register's own bytes. -/

namespace Sys2Proof.Machine

/-! The turns of the loop of R131. -/

/-- The polynomial is added under the feedback bit. -/
theorem crcShift_eq_xor (r : Crc) : crcShift r = r <<< 1 ^^^ if r.getLsbD 23 then Config.crcPoly else 0#24 := by
  unfold crcShift
  split
  · rfl
  · exact (BitVec.xor_zero ..).symm

theorem crcShift_xor (a b : Crc) : crcShift (a ^^^ b) = crcShift a ^^^ crcShift b := by
  have hfeedback : ∀ p q : Bool, (if p ^^ q then Config.crcPoly else 0#24)
      = (if p then Config.crcPoly else 0#24) ^^^ if q then Config.crcPoly else 0#24 := by decide
  rw [crcShift_eq_xor, crcShift_eq_xor a, crcShift_eq_xor b, BitVec.getLsbD_xor, hfeedback, BitVec.shiftLeft_xor_distrib]
  ac_rfl

theorem crcShifts_xor (n : Nat) (a b : Crc) : crcShifts n (a ^^^ b) = crcShifts n a ^^^ crcShifts n b := by
  induction n generalizing a b with
  | zero => rfl
  | succ n ih => simp only [crcShifts, crcShift_xor, ih]

theorem crcShift_of_clear {r : Crc} (h : r.getLsbD 23 = false) : crcShift r = r <<< 1 := by
  rw [crcShift, h, if_neg Bool.false_ne_true]

/-- The polynomial's constant term is 1, so bit 0 tells whether the turn reduced. -/
theorem crcShift_eq_zero {r : Crc} (h : crcShift r = 0#24) : r = 0#24 := by
  have hclear : r.getLsbD 23 = false := by
    have h0 : (crcShift r).getLsbD 0 = false := by rw [h]; rfl
    cases hr : r.getLsbD 23 with
    | false => rfl
    | true => simp [crcShift, hr, Config.crcPoly] at h0
  rw [crcShift_of_clear hclear] at h
  refine BitVec.eq_of_getLsbD_eq fun i hi => ?_
  by_cases htop : i = 23
  · rw [htop, hclear, BitVec.getLsbD_zero]
  · have hnext : (r <<< 1).getLsbD (i + 1) = false := by rw [h, BitVec.getLsbD_zero]
    rw [BitVec.getLsbD_zero, ← hnext, BitVec.getLsbD_shiftLeft, Nat.add_sub_cancel]
    simp [show i + 1 < 24 by omega]

theorem crcShifts_eq_zero {n : Nat} {r : Crc} (h : crcShifts n r = 0#24) : r = 0#24 := by
  induction n generalizing r with
  | zero => exact h
  | succ n ih => exact crcShift_eq_zero (ih h)

theorem crcShifts_inj {n : Nat} {a b : Crc} : crcShifts n a = crcShifts n b ↔ a = b := by
  refine ⟨fun h => ?_, congrArg _⟩
  rw [← BitVec.xor_eq_zero_iff] at h ⊢
  exact crcShifts_eq_zero (n := n) (by rw [crcShifts_xor, h])

/-- As long as no 1 reaches bit 23, the turns only shift. -/
theorem crcShifts_eq_shiftLeft {n : Nat} {r : Crc} (h : ∀ i, 24 ≤ i + n → r.getLsbD i = false) :
    crcShifts n r = r <<< n := by
  induction n generalizing r with
  | zero => exact (BitVec.shiftLeft_zero r).symm
  | succ n ih =>
    rw [crcShifts, crcShift_of_clear (h 23 (by omega)), ih fun i hi => ?_, ← BitVec.shiftLeft_add, Nat.add_comm]
    rw [BitVec.getLsbD_shiftLeft, h (i - 1) (by omega), Bool.and_false]

/-! The byte update (R132). -/

/-- A bit-serial step takes its data bit as a turn does that finds the bit added to bit 23. -/
theorem crcShift_xor_of_dataBit (c : Crc) {x : Crc} {d : Byte} {k : Nat} (hx : x.getLsbD 23 = d.getLsbD k) :
    crcShift (c ^^^ x) = crcSerialBit d c k ^^^ x <<< 1 := by
  simp only [crcShift, crcSerialBit, BitVec.getLsbD_xor, hx, BitVec.shiftLeft_xor_distrib, Bool.bne_eq_xor]
  split
  · ac_rfl
  · rfl

/-- The steps on the low `k` data bits are `k` turns over the register with these bits added on top: a shift by `24 - k` drops the
other bits of the byte. -/
theorem foldl_crcSerialBit (c : Crc) (d : Byte) {k : Nat} (hk : k ≤ 8) :
    (List.range k).reverse.foldl (crcSerialBit d) c = crcShifts k (c ^^^ d.setWidth 24 <<< (24 - k)) := by
  induction k generalizing c with
  | zero => simp [crcShifts]
  | succ k ih =>
    have hbit : (d.setWidth 24 <<< (24 - (k + 1))).getLsbD 23 = d.getLsbD k := by
      simp [show 23 - (23 - k) = k by omega]
    have hshift : d.setWidth 24 <<< (24 - (k + 1)) <<< 1 = d.setWidth 24 <<< (24 - k) := by
      rw [← BitVec.shiftLeft_add]
      congr 1
      omega
    rw [List.range_succ, List.reverse_append, List.reverse_singleton, List.singleton_append, List.foldl_cons,
      ih _ (by omega), crcShifts, crcShift_xor_of_dataBit c hbit, hshift]

theorem crcSerial_eq_crcShifts (c : Crc) (d : Byte) : crcSerial c d = crcShifts 8 (c ^^^ d.setWidth 24 <<< 16) :=
  foldl_crcSerialBit c d le_rfl

/-- Eight turns only shift the register whose top byte is cleared. -/
theorem crcShifts_xor_topByte (c : Crc) :
    crcShifts 8 (c ^^^ ((c >>> 16).setWidth 8).setWidth 24 <<< 16) = c <<< 8 := by
  rw [crcShifts_eq_shiftLeft fun i hi => ?_, BitVec.shiftLeft_xor_distrib, ← BitVec.shiftLeft_add,
    BitVec.shiftLeft_eq_zero (n := 16 + 8) le_rfl, BitVec.xor_zero]
  by_cases h : i < 24
  · simp [h, show ¬ i < 16 by omega, show 16 + (i - 16) = i by omega, show i - 16 < 8 by omega]
  · exact BitVec.getLsbD_of_ge _ _ (by omega)

/-- The table update takes the register apart: its top byte, with the data byte added, goes through the table, and the 16 bits below
are only shifted. -/
theorem crcStep_eq_crcShifts (c : Crc) (d : Byte) : crcStep c d = crcShifts 8 (c ^^^ d.setWidth 24 <<< 16) := by
  have hlow := crcShifts_xor_topByte c
  unfold crcStep
  generalize (c >>> 16).setWidth 8 = top at hlow ⊢
  rw [← hlow, crcTable, ← crcShifts_xor, BitVec.setWidth_xor, BitVec.shiftLeft_xor_distrib, BitVec.xor_assoc,
    xor_cancel_left]

theorem crcStep_eq_crcSerial (c : Crc) (d : Byte) : crcStep c d = crcSerial c d :=
  (crcStep_eq_crcShifts c d).trans (crcSerial_eq_crcShifts c d).symm

/-- Settles O24: both forms are eight turns over the register with the data byte added on top; the masks of R132 keep every bit. -/
theorem crcStepIsEightBitSerialSteps : Obligations.CrcStepIsEightBitSerialSteps := by
  refine fun c d => ⟨?_, crcStep_eq_crcSerial c d⟩
  rw [show 0xFFFFFF#24 = BitVec.allOnes 24 from rfl, show 0xFF#8 = BitVec.allOnes 8 from rfl, BitVec.and_allOnes,
    BitVec.and_allOnes, crcStep]

/-! The residue (R134). -/

/-- A byte drives the register's top byte to 0 and shifts the rest exactly if it is that top byte. -/
theorem crcStep_eq_append_zero_iff {c : Crc} {d : Byte} {low : BitVec 16} :
    crcStep c d = low ++ 0#8 ↔ c = d ++ low := by
  have hlow : crcShifts 8 (0#8 ++ low) = low ++ 0#8 := by
    rw [crcShifts_eq_shiftLeft fun i hi => ?_, BitVec.shiftLeft_eq_concat_of_lt (by decide)]
    · exact congrArg (· ++ 0#8) BitVec.extractLsb'_append_eq_right
    · rw [BitVec.getLsbD_append (x := 0#8), if_neg (by omega), BitVec.getLsbD_zero]
  have hbyte : d.setWidth 24 <<< 16 = d ++ 0#16 := by
    rw [BitVec.shiftLeft_eq_concat_of_lt (by decide)]
    refine congrArg (· ++ 0#16) (BitVec.eq_of_getLsbD_eq fun i hi => ?_)
    simp [hi, show i < 24 by omega]
  have hadd : 0#8 ++ low ^^^ (d ++ 0#16) = d ++ low := by
    rw [BitVec.xor_append, BitVec.zero_xor, BitVec.xor_zero]
  rw [crcStep_eq_crcShifts, ← hlow, crcShifts_inj, hbyte, ← hadd, xor_eq_iff_left_eq]

/-- Three bytes bring the register to 0 exactly if they are its own, most significant first. -/
theorem crcStep_crcStep_crcStep_eq_zero_iff {c : Crc} {b0 b1 b2 : Byte} :
    crcStep (crcStep (crcStep c b0) b1) b2 = 0#24 ↔ c = b0 ++ b1 ++ b2 := by
  have h2 : b2 ++ 0#16 = b2 ++ 0#8 ++ 0#8 := (BitVec.append_assoc (x₁ := b2) (x₂ := 0#8) (x₃ := 0#8)).symm
  have h1 : b1 ++ (b2 ++ 0#8) = b1 ++ b2 ++ 0#8 := (BitVec.append_assoc (x₁ := b1) (x₂ := b2) (x₃ := 0#8)).symm
  have h0 : b0 ++ (b1 ++ b2) = b0 ++ b1 ++ b2 := (BitVec.append_assoc (x₁ := b0) (x₂ := b1) (x₃ := b2)).symm
  calc crcStep (crcStep (crcStep c b0) b1) b2 = 0#16 ++ 0#8
      ↔ crcStep (crcStep c b0) b1 = b2 ++ 0#8 ++ 0#8 := by rw [crcStep_eq_append_zero_iff, h2]
    _ ↔ crcStep c b0 = b1 ++ b2 ++ 0#8 := by rw [crcStep_eq_append_zero_iff, h1]
    _ ↔ c = b0 ++ b1 ++ b2 := by rw [crcStep_eq_append_zero_iff, h0]

theorem Memory.crc24q_add_three_eq_zero_iff (m : Memory) (n : Nat) : m.crc24q (n + 3) = 0#24 ↔ m.crc24q n = m.read3 n :=
  crcStep_crcStep_crcStep_eq_zero_iff

/-- Settles O25: the trailer's bytes make up the CRC they follow. -/
theorem residueOfValidFrameIsZero : Obligations.ResidueOfValidFrameIsZero := by
  refine ⟨fun bytes => ?_, fun m n => m.crc24q_add_three_eq_zero_iff n⟩
  rw [crcOfBytes, List.foldl_append]
  exact crcStep_crcStep_crcStep_eq_zero_iff.2 (trailer_append _).symm

/-! The commands (R135 to R137). -/

/-- Settles O26. -/
theorem crcInitClearsAccumulator : Obligations.CrcInitClearsAccumulator := ⟨encodedAs_operands .crcInit, fun _ => rfl⟩

/-- Settles O27: the answered value is the byte update, in its bit-serial form. -/
theorem crcByteUpdatesAccumulator : Obligations.CrcByteUpdatesAccumulator :=
  ⟨encodedAs_operands .crcByte, fun s d => ⟨_, rfl, crcStep_eq_crcSerial s.crcAcc d⟩⟩

theorem exec_crcBuf_of_le {n : Nat} (s : State) (hn : n ≤ 1029) :
    exec (.crcBuf n) s =
      .next { s with crcAcc := s.buf.crc24q n, response := some ⟨.ok, (s.buf.crc24q n).setWidth 64⟩ } :=
  if_pos hn

theorem Memory.crc24q_eq_foldl (m : Memory) (n : Nat) : m.crc24q n = ((List.range n).map m.byte).foldl crcStep 0#24 := by
  have h := m.crc24q_eq_crcOfBytes ((List.range n).map m.byte) fun i hi => by simp
  rwa [List.length_map, List.length_range] at h

/-- Settles O28: in range by the CRC of the first bytes, which on a held frame is its trailer, so that all L + 6 bytes have CRC 0. -/
theorem crcBufIsCrcOfPrefix : Obligations.CrcBufIsCrcOfPrefix := by
  refine ⟨encodedAs_operands .crcBuf, fun s n => ⟨fun hout => if_neg (Nat.not_le.2 hout), fun hn => ?_, fun hheld => ?_⟩⟩
  · exact ⟨_, s.buf.crc24q_eq_foldl n, exec_crcBuf_of_le s hn⟩
  · obtain ⟨-, -, -, hcrc⟩ := hheld
    have hlen : s.frLen.toNat < 1024 := s.frLen.isLt
    have hzero : s.buf.crc24q (s.frLen.toNat + 6) = 0#24 := (s.buf.crc24q_add_three_eq_zero_iff _).2 hcrc
    rw [exec_crcBuf_of_le s (by omega), exec_crcBuf_of_le s (by omega), hcrc, hzero]
    exact ⟨rfl, rfl⟩

theorem perform_crcBytes (bytes : List Byte) (s : State) :
    ∃ r, perform (crcBytes bytes) s = .next { s with crcAcc := bytes.foldl crcStep s.crcAcc, response := r } := by
  induction bytes generalizing s with
  | nil => exact ⟨s.response, rfl⟩
  | cons b bytes ih => exact ih _

/-- Settles O29: after CRC_INIT the bytes fold into the initial value, as they do in the CRC of the buffer's first bytes. -/
theorem bytePathAgreesWithBufferPath : Obligations.BytePathAgreesWithBufferPath := by
  intro s n hn
  obtain ⟨r, hbytes⟩ := perform_crcBytes ((List.range n).map s.buf.byte)
    { s with crcAcc := 0#24, response := some ⟨.ok, 0#64⟩ }
  exact ⟨_, _, hbytes, exec_crcBuf_of_le s hn, (s.buf.crc24q_eq_foldl n).symm, rfl, rfl⟩

end Sys2Proof.Machine
end

section
/-! SUPPORT. The framer's arms one by one (R152 to R158), the bytes it skips in IDLE, a frame taken from its preamble to its last
trailer byte (R159, R164), and what the other commands leave of a frame in flight (R233). -/

namespace Sys2Proof.Machine

/-! The store of an arm, and the header's fields in number form. -/

theorem oneByteStored_write (m : Memory) (i : Nat) (d : Byte) : OneByteStored m (m.write i d) i d :=
  ⟨m.byte_write_self i d, fun _ ha => m.byte_write_ne d ha⟩

theorem storeAtFill_of_lt {s : State} (d : Byte) (rest : State → State) (h : s.frFill.toNat < Config.bufBytes) :
    storeAtFill d s rest = .next (rest { s with buf := s.buf.write s.frFill.toNat d, frFill := s.frFill + 1 }) :=
  if_pos h

theorem declaredLength_toNat_eq_or (b1 b2 : Byte) :
    (declaredLength b1 b2).toNat = (b1.toNat &&& 0x03) <<< 8 ||| b2.toNat := by
  have hand : b1.toNat &&& 0x03 = b1.toNat % 4 := Nat.and_two_pow_sub_one_eq_mod _ 2
  rw [declaredLength_eq_append, BitVec.toNat_append, hand, BitVec.extractLsb'_toNat, Nat.shiftRight_zero]

theorem reservedFlag_eq_decide_and (b : Byte) : reservedFlag b = decide (b.toNat &&& 0xFC ≠ 0) := by
  simp [reservedFlag, ← BitVec.toNat_inj]

/-- The reserved bits are the top six, so they are nonzero exactly from 4 on (R71). -/
theorem reservedFlag_eq_decide_le (b : Byte) : reservedFlag b = decide (4 ≤ b.toNat) := by
  have hsplit : b.extractLsb' 2 6 ++ b.extractLsb' 0 2 = b := BitVec.extractLsb'_append_extractLsb' (w := 6)
  have htop : b.extractLsb' 2 6 = 0#6 ↔ b.toNat < 4 := by
    have := b.isLt
    rw [← BitVec.toNat_inj, BitVec.extractLsb'_toNat, Nat.shiftRight_eq_div_pow, BitVec.toNat_zero]
    omega
  rw [← hsplit, reservedFlag_header, hsplit]
  exact decide_eq_decide.2 ((not_congr htop).trans Nat.not_lt)

/-! The arms. -/

theorem pushIdle_of_ne_preamble {d : Byte} (s : State) (hd : d ≠ Config.preamble) :
    pushIdle d s = answered s .ok 0#64 := if_neg hd

theorem pushIdle_preamble (s : State) :
    pushIdle Config.preamble s =
      { s with buf := s.buf.write 0 Config.preamble, frFill := 1, frLen := 0, frReady := false, frResv := false,
               frState := .len1, response := some ⟨.ok, 0#64⟩ } := if_pos rfl

/-- Settles O30: the IDLE arm, by whether the byte is the preamble. -/
theorem pushInIdle : Obligations.PushInIdle := by
  refine fun s d hs => ⟨fun hd => ?_, fun hd => ⟨_, oneByteStored_write s.buf 0 d, ?_⟩⟩
  · exact (execPush_of_idle hs).trans (congrArg _ (pushIdle_of_ne_preamble s hd))
  · subst hd
    exact (execPush_of_idle hs).trans (congrArg _ (pushIdle_preamble s))

/-- Settles O31: the arm stores and moves on whatever the byte is. -/
theorem pushInLen1 : Obligations.PushInLen1 := fun s d hs =>
  ⟨_, oneByteStored_write s.buf 1 d, execPush_of_len1 hs⟩

/-- Settles O32: the arm reads header byte 1 from the buffer, below the byte it has just stored. -/
theorem pushInLen2 : Obligations.PushInLen2 := by
  refine fun s d hs => ⟨_, declaredLength (s.buf.byte 1) d, oneByteStored_write s.buf 2 d,
    declaredLength_toNat_eq_or _ d, ?_⟩
  refine (execPush_of_len2 hs).trans (congrArg _ ?_)
  simp [pushLen2, State.respond, Memory.byte_write, reservedFlag_eq_decide_and]

/-- Settles O33: the arm compares the advanced index with L + 3. -/
theorem pushInPayload : Obligations.PushInPayload := by
  intro s d hs hle
  have hlt : s.frFill.toNat < Config.bufBytes := Nat.lt_succ_of_le hle
  refine ⟨_, _, oneByteStored_write s.buf _ d, fill_succ hlt, ?_⟩
  refine (execPush_of_payload hs).trans ((storeAtFill_of_lt d _ hlt).trans (congrArg _ ?_))
  simp only [pushPayload, State.respond, fill_succ hlt, hs, Nat.add_right_cancel_iff]

theorem pushCrc_of_lt {s : State} (h : s.frFill.toNat < s.frLen.toNat + 6) : pushCrc s = answered s .ok 0#64 := if_pos h

theorem pushCrc_of_ge {s : State} (h : s.frLen.toNat + 6 ≤ s.frFill.toNat) : pushCrc s = completeFrame s :=
  if_neg (Nat.not_lt.2 h)

/-- Settles O34: the advanced index tells the third trailer byte, and the end of the frame compares the two CRC values. -/
theorem pushInCrc : Obligations.PushInCrc := by
  intro s d hs hle
  have hlt : s.frFill.toNat < Config.bufBytes := Nat.lt_succ_of_le hle
  have hfill := fill_succ hlt
  have hpush : exec (.push d) s =
      .next (pushCrc { s with buf := s.buf.write s.frFill.toNat d, frFill := s.frFill + 1 }) :=
    (execPush_of_crc hs).trans (storeAtFill_of_lt d _ hlt)
  refine ⟨_, oneByteStored_write s.buf _ d, fun hmore => ⟨_, hfill, ?_⟩, fun hlast => ?_⟩
  · rw [hpush, pushCrc_of_lt (by rwa [hfill])]
    rfl
  · have hlen : s.frLen.toNat < 1024 := s.frLen.isLt
    rw [hpush, pushCrc_of_ge (by rwa [hfill]), completeFrame_eq]
    refine ⟨_, infoSays_completionInfo _ _ _ (by omega), fun hcrc => ?_, fun hcrc => ?_⟩
    · simp [hcrc]
    · simp [hcrc]

/-! Bytes that start no frame (R152). -/

theorem feed_of_ne_preamble {s : State} {bytes : List Byte} (hs : s.frState = .idle)
    (hbytes : ∀ b ∈ bytes, b ≠ Config.preamble) :
    feed bytes s = .next { s with response := if bytes = [] then s.response else some ⟨.ok, 0#64⟩ } := by
  induction bytes generalizing s with
  | nil => rfl
  | cons b bytes ih =>
    obtain ⟨hb, htail⟩ := List.forall_mem_cons.1 hbytes
    rw [feed_cons bytes (execPush_of_idle hs), pushIdle_of_ne_preamble s hb, ih (s := answered s .ok 0#64) hs htail]
    simp [answered]

/-- Settles O36, by induction on the bytes: only the response can tell that they were pushed. -/
theorem noiseIsSkipped : Obligations.NoiseIsSkipped := fun _ _ hs hbytes =>
  ⟨_, feed_of_ne_preamble hs hbytes, rfl, fun hne => if_neg hne⟩

/-! A frame (R159, R164). -/

theorem State.gathered_frState_ne_idle (s : State) (len : BitVec 10) (resv : Bool) (bytes : List Byte) :
    (s.gathered len resv bytes).frState ≠ .idle := by
  unfold State.gathered
  split <;> nofun

/-- After a proper part of a frame the framer is in flight: in the header after one or two bytes, else it gathers. -/
theorem feed_frame_part {s : State} {h1 h2 : Byte} {rest p q : List Byte} (hs : s.frState = .idle)
    (hpq : p ++ q = Config.preamble :: h1 :: h2 :: rest) (hp : p ≠ [])
    (hlen : p.length ≤ (declaredLength h1 h2).toNat + 5) :
    ∃ u, feed p s = .next u ∧ u.frState ≠ .idle ∧ u.frFill.toNat = p.length ∧ u.response = some ⟨.ok, 0#64⟩ := by
  have hpreamble := (execPush_of_idle hs).trans (congrArg _ (pushIdle_preamble s))
  obtain _ | ⟨b0, _ | ⟨b1, _ | ⟨b2, more⟩⟩⟩ := p
  · exact absurd rfl hp
  · obtain ⟨rfl, -⟩ := List.cons.inj hpq
    exact ⟨_, feed_cons _ hpreamble, nofun, rfl, rfl⟩
  · obtain ⟨rfl, -⟩ := List.cons.inj hpq
    exact ⟨_, (feed_cons _ hpreamble).trans (feed_cons _ (execPush_of_len1 rfl)), nofun, rfl, rfl⟩
  · simp only [List.cons_append, List.cons.injEq] at hpq
    obtain ⟨rfl, rfl, rfl, -⟩ := hpq
    refine ⟨_, (feed_append more (feed_header b1 b2 hs)).trans (feed_gathered ?_),
      State.gathered_frState_ne_idle _ _ _ _, State.gathered_frFill ?_, rfl⟩
    · simp only [List.length_cons, List.length_nil] at hlen ⊢
      omega
    · exact Nat.le_succ_of_le hlen

/-- The stored frame has residue 0 exactly if the CRC of its body is its trailer (R134). -/
theorem Memory.crc24q_storeBytes_frame_eq_zero_iff (m : Memory) (body : List Byte) (t0 t1 t2 : Byte) :
    (m.storeBytes (body ++ [t0, t1, t2])).crc24q (body.length + 3) = 0#24 ↔ crcOfBytes body = t0 ++ t1 ++ t2 := by
  rw [Memory.crc24q_add_three_eq_zero_iff, Memory.crc24q_storeBytes_append, Memory.read3_storeBytes_append]

/-- Settles O37: a proper part leaves the frame in flight, and the whole frame is ended by the CRC of its body. -/
theorem frameEmittedExactlyIfCrcMatches : Obligations.FrameEmittedExactlyIfCrcMatches := by
  intro s h1 h2 payload t0 t1 t2 hs hpayload body bytes received
  have hdecl : (declaredLength h1 h2).toNat = payload.length := (declaredLength_toNat h1 h2).trans hpayload.symm
  have hbody : body.length = (declaredLength h1 h2).toNat + 3 := congrArg (· + 3) hdecl.symm
  have hframe := (feed_frame t0 t1 t2 hs hdecl).trans
    (congrArg _ (completeFrame_gathered s (reservedFlag h1) t0 t1 t2 hbody))
  refine ⟨fun p q hpq hp hq => feed_frame_part hs hpq hp ?_, _, _, hframe, rfl, rfl, hdecl,
    reservedFlag_eq_decide_le h1, rfl, rfl, ?_, rfl, ?_, s.buf.byte_storeBytes bytes⟩
  · have htotal := congrArg List.length hpq
    have := List.length_pos_iff.2 hq
    simp only [bytes, List.length_append, hbody, List.length_cons, List.length_nil] at htotal
    omega
  · rw [← reservedFlag_eq_decide_le]
    have hlen : (declaredLength h1 h2).toNat < 1024 := (declaredLength h1 h2).isLt
    have hbound : body.length < 2 ^ 11 := by omega
    exact infoSays_completionInfo _ _ _ hbound
  · exact (s.buf.crc24q_storeBytes_frame_eq_zero_iff body t0 t1 t2).symm

/-! The other commands (R233). -/

theorem exec_answers_of_ne_push {i : Instr} (s : State) (hi : ∀ d, i ≠ .push d) : ∃ t, exec i s = .next t := by
  cases h : exec i s with
  | next t => exact ⟨t, rfl⟩
  | fault r =>
    obtain ⟨d, rfl⟩ := push_of_exec_fault h
    exact absurd rfl (hi d)
  | refused r => exact absurd h (exec_ne_refused i s r)

/-- Settles O40: of what a command can do, a host write needs IDLE, and the rest is left to RESET and PUSH. -/
theorem frameInFlightIsUndisturbed : Obligations.FrameInFlightIsUndisturbed := by
  intro s i hflight hpush hreset
  obtain ⟨t, ht⟩ := exec_answers_of_ne_push s hpush
  refine ⟨t, ht, ?_⟩
  obtain ⟨r, rfl⟩ | ⟨hi, -⟩ | ⟨-, c, d, rfl⟩ | ⟨-, hs, -⟩ | ⟨d, hi, -⟩ := exec_cases ht
  · rfl
  · exact absurd hi hreset
  · rfl
  · exact absurd hs hflight
  · exact absurd hi (hpush d)

end Sys2Proof.Machine
end

section
/-! SUPPORT. The control and buffer-access commands (R180 to R184): their answers, and the fields of the status view (R31). -/

namespace Sys2Proof.Machine

/-- Settles O8: the encoding by its row, and NOP does nothing but respond. -/
theorem nopChangesNothing : Obligations.NopChangesNothing := ⟨encodedAs_operands .nop, fun _ => rfl⟩

/-- Settles O9: what RESET writes is the registers at their reset values, the generator's `CRC_INIT` among them. -/
theorem resetClearsRegistersKeepsBuffer : Obligations.ResetClearsRegistersKeepsBuffer :=
  ⟨encodedAs_operands .reset, fun _ => rfl⟩

/-- The view is the six registers side by side, so each is cut out of it where it was put in (R31). -/
theorem State.statusWord_fields (s : State) :
    s.statusWord.extractLsb' 0 3 = s.frState.code ∧ s.statusWord.getLsbD 3 = s.frReady ∧
      s.statusWord.getLsbD 4 = s.frResv ∧ s.statusWord.extractLsb' 5 10 = s.frLen ∧
      s.statusWord.extractLsb' 15 11 = s.frFill ∧ s.statusWord.extractLsb' 26 24 = s.crcAcc ∧
      s.statusWord.extractLsb' 50 14 = 0#14 := by
  unfold State.statusWord
  refine ⟨?state, ?ready, ?resv, ?len, ?fill, ?acc, ?above⟩
  case state | len | fill | acc =>
    simp (disch := decide) only [BitVec.extractLsb'_setWidth_of_le, BitVec.extractLsb'_append_eq_of_le, Nat.reduceSub,
      BitVec.extractLsb'_append_eq_right, BitVec.extractLsb'_eq_self]
  case ready | resv =>
    simp only [BitVec.getLsbD_setWidth, BitVec.getLsbD_append]
    simp
  case above =>
    refine BitVec.eq_of_getLsbD_eq fun i _ => ?_
    rw [BitVec.getLsbD_extractLsb', BitVec.getLsbD_setWidth, BitVec.getLsbD_of_ge _ _ (by omega)]
    simp

/-- Settles O10: the fields of the status view are the ones it is put together from. -/
theorem statusShowsEveryRegister : Obligations.StatusShowsEveryRegister := by
  refine ⟨encodedAs_operands .status, fun s => ⟨s.statusWord, rfl, ?_⟩⟩
  obtain ⟨hstate, hfields⟩ := s.statusWord_fields
  refine ⟨hstate.trans ?_, hfields⟩
  cases s.frState <;> rfl

/-- Settles O11: the index is in range up to 1028, and the framer's state plays no part. -/
theorem bufRdReadsByteOrRange : Obligations.BufRdReadsByteOrRange :=
  ⟨encodedAs_operands .bufRd, fun s _ =>
    ⟨fun hout => if_neg (Nat.not_lt.2 hout), fun hidx => exec_bufRd_of_le s hidx⟩⟩

/-- The host write guard (R201, R233), for an index in range. -/
theorem exec_bufWr_of_inFlight {s : State} {k : Nat} (d : Byte) (hs : s.frState ≠ .idle) (hk : k ≤ 1028) :
    exec (.bufWr k d) s = .next (answered s .busy 0#64) := by
  rw [answered, ← State.hostWrite_busy (s.buf.write k d) hs]
  exact if_pos (Nat.lt_succ_of_le hk)

/-- Settles O12: RANGE by the index alone, then BUSY by the framer's state (R204), else a host write of one byte. -/
theorem bufWrWritesByteOrRangeOrBusy : Obligations.BufWrWritesByteOrRangeOrBusy := by
  refine ⟨encodedAs_operands .bufWr, fun s idx d =>
    ⟨fun hout => if_neg (Nat.not_lt.2 hout), fun hidx hs => exec_bufWr_of_inFlight d hs hidx, fun hidx hs => ?_⟩⟩
  exact ⟨_, oneByteStored_write s.buf idx d, exec_bufWr_of_idle d hs hidx⟩

end Sys2Proof.Machine
end

section
/-! SUPPORT. Error conditions (R200 to R204, R208): a failed command does nothing, a host write in flight reports one condition in the
order of R204, and the block goes on from every state that meets the invariant. -/

namespace Sys2Proof.Machine

/-! Failed commands (R202). -/

theorem State.hostWrite_fails_or_succeeds (s : State) (m : Memory) :
    s.hostWrite m = s.fail .busy ∨ ∃ d, (s.hostWrite m).response = some ⟨.ok, d⟩ := by
  by_cases hs : s.frState = .idle
  · exact .inr ⟨_, by rw [State.hostWrite_idle m hs]⟩
  · exact .inl (State.hostWrite_busy m hs)

/-- A command that decodes does nothing but fail, or it ends with one of the other three statuses. -/
theorem exec_fails_or_succeeds {i : Instr} {s t : State} (h : exec i s = .next t) :
    (∃ st, t = s.fail st) ∨ ∃ st d, t.response = some ⟨st, d⟩ ∧ (st = .ok ∨ st = .frame ∨ st = .crcErr) := by
  cases i with
  | nop | reset | status | crcInit | crcByte =>
    cases h
    exact .inr ⟨_, _, rfl, .inl rfl⟩
  | bufRd | crcBuf | getu | gets | gets38 | getsm =>
    obtain rfl | rfl := guarded_next h
    · exact .inr ⟨_, _, rfl, .inl rfl⟩
    · exact .inl ⟨_, rfl⟩
  | bufWr | setu | sets =>
    obtain rfl | rfl := guarded_next h
    · obtain hbusy | ⟨d, hok⟩ := s.hostWrite_fails_or_succeeds _
      · exact .inl ⟨_, hbusy⟩
      · exact .inr ⟨_, d, hok, .inl rfl⟩
    · exact .inl ⟨_, rfl⟩
  | push b => exact .inr (execPush_status h)

/-- Settles O43: a word that does not decode fails in the step itself, and one that decodes fails in its command. -/
theorem failedCommandHasNoEffect : Obligations.FailedCommandHasNoEffect := by
  intro s t c rest st d hstep hr hfailed
  cases hd : decode c with
  | illegal why =>
    rw [step_of_decode_illegal rfl hd] at hstep
    cases hstep
    cases hr
    exact ⟨rfl, rfl⟩
  | instr i =>
    rw [step_of_decode_instr rfl hd] at hstep
    obtain ⟨st, rfl⟩ | ⟨st, d, hr', hst⟩ := exec_fails_or_succeeds hstep
    · cases hr
      exact ⟨rfl, rfl⟩
    · cases hr'.symm.trans hr
      obtain rfl | rfl | rfl := hst <;> simp at hfailed

/-! The order of the conditions (R204). -/

theorem and_lenMask_eq_zero_iff {w : Word} : w &&& 0x0FC00000#32 = 0#32 ↔ (w.extractLsb' 22 6).toNat = 0 := by
  refine ⟨fun h => congrArg BitVec.toNat (field_eq_zero_of_masked h (by decide)), fun h => ?_⟩
  have hlen : w.extractLsb' 22 6 = 0#6 := BitVec.eq_of_toNat_eq h
  refine (cmd_and w 0#4 0x3F#6 0#14 0#8).trans ?_
  rw [hlen, BitVec.and_zero, BitVec.and_zero, BitVec.and_zero]
  rfl

theorem and_dataMask_eq_zero_iff {w : Word} : w &&& 0x000000FF#32 = 0#32 ↔ w.extractLsb' 0 8 = 0#8 := by
  refine ⟨fun h => field_eq_zero_of_masked h (by decide), fun h => ?_⟩
  refine (cmd_and w 0#4 0#6 0#14 0xFF#8).trans ?_
  rw [h, BitVec.and_zero, BitVec.and_zero, BitVec.and_zero]
  rfl

/-- While a frame is in flight, a row of host writes reports a must-be-zero bit first, then an operand out of range, then BUSY:
the decoder comes before the range check, and the range check before the host write guard. -/
theorem hostWrite_reports_in_order {op : Opcode} {c : Command} {s : State} {illegal range inRange : Prop}
    {_ : Decidable inRange} (m : State → Memory) (hs : s.frState ≠ .idle) (hop : opField c.cmd = op.code)
    (hexec : ∀ u, exec (op.operands c) u = if inRange then .next (u.hostWrite (m u)) else .next (u.fail .range))
    (hillegal : c.cmd &&& op.mbz = 0#32 ↔ ¬ illegal) (hrange : range ↔ ¬ inRange) :
    (illegal → Answers s c (answered s .illegal 0#64)) ∧
    (¬ illegal → range → Answers s c (answered s .range 0#64)) ∧
    (¬ illegal → ¬ range → Answers s c (answered s .busy 0#64)) := by
  obtain ⟨hdecodes, hrejected⟩ := encodedAs_operands op c hop
  have hperformed (hi : ¬ illegal) (rest : List HostInput) :=
    (step_of_decode_instr (s := { s with pending := .command c :: rest }) rfl (hdecodes (hillegal.2 hi))).trans
      (hexec { s with pending := rest })
  refine ⟨fun hi => hrejected (fun hmbz => hillegal.1 hmbz hi) s, fun hi hout rest => ?_, fun hi hin rest => ?_⟩
  · exact (hperformed hi rest).trans (if_neg (hrange.1 hout))
  · rw [hperformed hi rest, if_pos (Decidable.not_not.1 (mt hrange.2 hin))]
    exact congrArg Host.Outcome.next (State.hostWrite_busy _ hs)

/-- Settles O44: the three rows are host writes, each with its must-be-zero field and its operand range. -/
theorem illegalBeforeRangeBeforeBusy : Obligations.IllegalBeforeRangeBeforeBusy := by
  intro s c hs pos len report
  have hdata : c.cmd &&& 0x000000FF#32 = 0#32 ↔ ¬ c.cmd.extractLsb' 0 8 ≠ 0#8 :=
    and_dataMask_eq_zero_iff.trans not_not.symm
  refine ⟨fun hop => ?bufWr, fun hop => ?setu, fun hop => ?sets⟩
  case bufWr =>
    exact hostWrite_reports_in_order (op := .bufWr) (inRange := IndexInRange pos)
      (fun u => u.buf.write pos (dataField c.cmd)) hs hop (fun _ => rfl)
      (and_lenMask_eq_zero_iff.trans not_not.symm) Nat.not_lt.symm
  case setu =>
    refine hostWrite_reports_in_order (op := .setu) (inRange := FieldInRange pos len ∧ UnsignedFits len c.arg)
      (fun u => u.buf.writeField pos len c.arg) hs hop (fun _ => rfl) hdata ?_
    rw [not_and_or, not_fieldInRange_iff, Nat.lt_one_iff, Nat.not_lt, or_assoc, or_assoc]
  case sets =>
    refine hostWrite_reports_in_order (op := .sets) (inRange := FieldInRange pos len ∧ SignedFits len c.arg)
      (fun u => u.buf.writeField pos len c.arg) hs hop (fun _ => rfl) hdata ?_
    rw [not_and_or, not_fieldInRange_iff, Nat.lt_one_iff, not_and_or, Int.not_le, Int.not_lt, or_assoc, or_assoc]

/-! Progress (R200, R208). -/

/-- No command issues or takes an input of the host. -/
theorem exec_pending {i : Instr} {s t : State} (h : exec i s = .next t) : t.pending = s.pending := by
  obtain ⟨r, rfl⟩ | ⟨-, rfl⟩ | ⟨-, c, d, rfl⟩ | ⟨-, -, m, -, rfl⟩ | ⟨d, -, hp⟩ := exec_cases h
  case' inr.inr.inr.inr => exact execPush_pending hp
  all_goals rfl

/-- With the store index in the buffer every command answers. -/
theorem exec_answers {s : State} (hfill : s.frFill.toNat < Config.bufBytes) (i : Instr) :
    ∃ t r, exec i s = .next t ∧ t.pending = s.pending ∧ t.response = some r := by
  have hnext : ∃ t, exec i s = .next t := by
    by_cases hi : ∃ d, i = .push d
    · obtain ⟨d, rfl⟩ := hi
      exact execPush_answers hfill d
    · exact exec_answers_of_ne_push s (not_exists.1 hi)
  obtain ⟨t, ht⟩ := hnext
  obtain ⟨st, d, hr, -⟩ := statusesComeFromTheirCommands s t i ht
  exact ⟨t, ⟨st, d⟩, ht, exec_pending ht, hr⟩

/-- Settles O49, by the oldest input: the invariant keeps the store index of a PUSH in the buffer. -/
theorem blockAlwaysGoesOn : Obligations.BlockAlwaysGoesOn := by
  intro s hinv
  cases hp : s.pending with
  | nil => exact ⟨s, step_of_no_input hp, nofun⟩
  | cons input rest =>
    cases input with
    | rst => exact ⟨_, step_of_rst hp, nofun⟩
    | command c =>
      cases hd : decode c with
      | illegal why =>
        refine ⟨_, step_of_decode_illegal hp hd, fun c' rest' heq => ?_⟩
        cases heq
        exact ⟨rfl, _, rfl⟩
      | instr i =>
        obtain ⟨t, r, ht, hpending, hr⟩ := exec_answers (s := { s with pending := rest }) hinv.fill_lt i
        refine ⟨t, (step_of_decode_instr hp hd).trans ht, fun c' rest' heq => ?_⟩
        cases heq
        exact ⟨hpending, r, hr⟩

end Sys2Proof.Machine
end

section
/-! SUPPORT. Power-on reset (R34, R230), and the reads under the host's guard (R234): what they answer depends on the header and
payload bytes of the held frame alone. -/

namespace Sys2Proof.Machine

/-! Power-on reset. -/

/-- Settles O7: the step of `rst` is `State.powerOn`, which lists no buffer byte as written, and neither does `State.reset`. -/
theorem powerOnResetValues : Obligations.PowerOnResetValues :=
  ⟨fun _ _ => ⟨_, step_of_rst rfl, rfl, rfl, rfl, rfl, rfl, rfl, fun i _ => Memory.byte_nil i, rfl, rfl⟩,
    rfl, rfl, rfl, rfl, rfl, rfl, fun i _ => Memory.byte_nil i⟩

/-! Reads inside the held frame. -/

/-- The guard implies the block's own range check (R62): the longest frame has 1023 payload bytes. -/
theorem InsideFrame.le_bufBits {s : State} {pos width : Nat} (h : InsideFrame s pos width) :
    pos + width ≤ Config.bufBits := by
  have hlen : s.frLen.toNat < 1024 := s.frLen.isLt
  unfold InsideFrame at h
  unfold Config.bufBits
  omega

/-- Buffers with the same first `k` bytes have the same first `8 * k` bits. -/
theorem Memory.bit_congr {m n : Memory} {k i : Nat} (h : ∀ a, a < k → m.byte a = n.byte a) (hi : i < 8 * k) :
    m.bit i = n.bit i := by
  rw [Memory.bit, Memory.bit, h (i / 8) (Nat.div_lt_of_lt_mul hi)]

theorem Memory.field_congr {m n : Memory} {pos len : Nat} (h : ∀ i, pos ≤ i → i < pos + len → m.bit i = n.bit i) :
    m.field pos len = n.field pos len :=
  congrArg (BitVec.ofNat len) (Memory.getu_congr h)

/-- A sign-magnitude field depends on its sign bit and on the magnitude bits after it. -/
theorem Memory.getsm_congr {m n : Memory} {pos len : Nat} (hlen : 1 ≤ len)
    (h : ∀ i, pos ≤ i → i < pos + len → m.bit i = n.bit i) : m.getsm pos len = n.getsm pos len := by
  have hsign : m.bit pos = n.bit pos := h pos le_rfl (by omega)
  have hmagnitude : m.getu (pos + 1) (len - 1) = n.getu (pos + 1) (len - 1) :=
    Memory.getu_congr fun i hlow hhigh => h i (by omega) (by omega)
  rw [Memory.getsm, Memory.getsm, hsign, hmagnitude]

/-- States with the same header and payload bytes agree on every bit of a field inside the frame. -/
theorem InsideFrame.bit_congr {s u : State} {pos width : Nat} (h : InsideFrame s pos width)
    (hbytes : ∀ a, a < s.frLen.toNat + 3 → s.buf.byte a = u.buf.byte a) :
    ∀ i, pos ≤ i → i < pos + width → s.buf.bit i = u.buf.bit i :=
  fun _ _ hi => Memory.bit_congr hbytes (hi.trans_le h)

/-- Settles O50: in both states the guard puts the field in range, and its bits, of which each answer is a function, are the
same. -/
theorem guardedReadsSeeOnlyTheFrame : Obligations.GuardedReadsSeeOnlyTheFrame := by
  refine fun s u pos len _ hbytes => ⟨fun hmin hmax hin => ?_, fun hin => ?_⟩
  · have hrange : FieldInRange pos len := ⟨hmin, hmax, hin.le_bufBits⟩
    have hbits := hin.bit_congr hbytes
    refine ⟨_, _, _, exec_getu_of_inRange s hrange, ?_, exec_gets_of_inRange s hrange, ?_, exec_getsm_of_inRange s hrange, ?_⟩
    · rw [Memory.getu_congr hbits, exec_getu_of_inRange u hrange]
    · rw [Memory.field_congr hbits, exec_gets_of_inRange u hrange]
    · rw [Memory.getsm_congr hmin hbits, exec_getsm_of_inRange u hrange]
  · refine ⟨_, exec_gets38_of_inRange s hin.le_bufBits, ?_⟩
    rw [Memory.field_congr (hin.bit_congr hbytes), exec_gets38_of_inRange u hin.le_bufBits]

end Sys2Proof.Machine
end
